-- ==== Sys2Proof/Word.lean ====
section
/-! DEFINITION. The word types of the machine and their plainest arithmetic (00_scope.md R10: every value is an
unsigned integer of a stated width; R20, R91 for the sizes of the fields). -/

namespace Sys2Proof

/-- An 8-bit value: a general register, a memory cell, a timer, the immediate `kk`. -/
abbrev Byte := BitVec 8

/-- A 16-bit value: the instruction word, PC, I, a return address. -/
abbrev Word := BitVec 16

/-- The 12-bit immediate `nnn`. -/
abbrev Imm12 := BitVec 12

/-- A general register number, a 4-bit field and so never out of range (R20). -/
abbrev Reg := Fin 16

/-- A key index 0..15 (R38). -/
abbrev Key := Fin 16

/-- The sprite height `n` of DRW, 0..15 (R93). -/
abbrev Rows := Fin 16

/-- Register 15, the flag register VF (R21). -/
abbrev VF : Reg := 15

end Sys2Proof
end

