-- ==== Sys2Proof/Syntax.lean ====
section
/-! DEFINITION. The instructions: one constructor per row of R94 (spec/opcode_table.json), with the operand fields of
its format (R92, R93), and the assembler text of R101. -/

namespace Sys2Proof

/-- The 27 instructions, in the order of R94. -/
inductive Instr where
  | cls
  | ret
  | sys (nnn : Imm12)
  | jp (nnn : Imm12)
  | call (nnn : Imm12)
  | seVxKk (x : Reg) (kk : Byte)
  | sneVxKk (x : Reg) (kk : Byte)
  | ldVxKk (x : Reg) (kk : Byte)
  | addVxKk (x : Reg) (kk : Byte)
  | ldVxVy (x y : Reg)
  | andVxVy (x y : Reg)
  | xorVxVy (x y : Reg)
  | addVxVy (x y : Reg)
  | subVxVy (x y : Reg)
  /-- `y` is a field of the word that has no effect (R99); it is kept so that no bit of the word is lost. -/
  | shrVx (x y : Reg)
  | ldINnn (nnn : Imm12)
  | rndVxKk (x : Reg) (kk : Byte)
  | drw (x y : Reg) (n : Rows)
  | skp (x : Reg)
  | sknp (x : Reg)
  | ldVxDt (x : Reg)
  | ldVxK (x : Reg)
  | ldDtVx (x : Reg)
  | ldStVx (x : Reg)
  | addIVx (x : Reg)
  | ldBVx (x : Reg)
  | ldVxI (x : Reg)
deriving DecidableEq, Repr

/-- The hexadecimal digit of a number below 16. -/
def hexDigit (d : Fin 16) : String :=
  ["0", "1", "2", "3", "4", "5", "6", "7", "8", "9", "A", "B", "C", "D", "E", "F"].getD d.val "?"

/-- The last `k` hexadecimal digits of `n`. -/
def hexDigits : Nat → Nat → String
  | 0, _ => ""
  | k + 1, n => hexDigits k (n / 16) ++ hexDigit ⟨n % 16, Nat.mod_lt _ (by decide)⟩

/-- A register name V0..VF (R101). -/
def regText (r : Reg) : String := "V" ++ hexDigit r

/-- An immediate of `k` hexadecimal digits. -/
def immText (k n : Nat) : String := "0x" ++ hexDigits k n

/-- The assembler text of an instruction: mnemonic and operands as R101 spells them, destination first. -/
def Instr.text : Instr → String
  | .cls => "CLS"
  | .ret => "RET"
  | .sys nnn => "SYS " ++ immText 3 nnn.toNat
  | .jp nnn => "JP " ++ immText 3 nnn.toNat
  | .call nnn => "CALL " ++ immText 3 nnn.toNat
  | .seVxKk x kk => "SE " ++ regText x ++ "," ++ immText 2 kk.toNat
  | .sneVxKk x kk => "SNE " ++ regText x ++ "," ++ immText 2 kk.toNat
  | .ldVxKk x kk => "LD " ++ regText x ++ "," ++ immText 2 kk.toNat
  | .addVxKk x kk => "ADD " ++ regText x ++ "," ++ immText 2 kk.toNat
  | .ldVxVy x y => "LD " ++ regText x ++ "," ++ regText y
  | .andVxVy x y => "AND " ++ regText x ++ "," ++ regText y
  | .xorVxVy x y => "XOR " ++ regText x ++ "," ++ regText y
  | .addVxVy x y => "ADD " ++ regText x ++ "," ++ regText y
  | .subVxVy x y => "SUB " ++ regText x ++ "," ++ regText y
  | .shrVx x _ => "SHR " ++ regText x
  | .ldINnn nnn => "LD I," ++ immText 3 nnn.toNat
  | .rndVxKk x kk => "RND " ++ regText x ++ "," ++ immText 2 kk.toNat
  | .drw x y n => "DRW " ++ regText x ++ "," ++ regText y ++ "," ++ immText 1 n.val
  | .skp x => "SKP " ++ regText x
  | .sknp x => "SKNP " ++ regText x
  | .ldVxDt x => "LD " ++ regText x ++ ",DT"
  | .ldVxK x => "LD " ++ regText x ++ ",K"
  | .ldDtVx x => "LD DT," ++ regText x
  | .ldStVx x => "LD ST," ++ regText x
  | .addIVx x => "ADD I," ++ regText x
  | .ldBVx x => "LD B," ++ regText x
  | .ldVxI x => "LD " ++ regText x ++ ",[I]"

end Sys2Proof
end

