-- ==== Sys2Proof/WellFormed.lean ====
section
/-! DEFINITION. Which terms of Instr are instructions of the hardware. Every operand's range is in its type (R20, R93);
the one relation left to check is R94 row 3: the words 0x00E0 and 0x00EE are CLS and RET and never SYS. -/

namespace Sys2Proof

/-- R94 row 3: SYS's `nnn` is neither 0x0E0 nor 0x0EE. -/
def Instr.wf : Instr → Bool
  | .sys nnn => nnn != 0x0E0#12 && nnn != 0x0EE#12
  | .cls | .ret | .jp _ | .call _ | .seVxKk _ _ | .sneVxKk _ _ | .ldVxKk _ _ | .addVxKk _ _
  | .ldVxVy _ _ | .andVxVy _ _ | .xorVxVy _ _ | .addVxVy _ _ | .subVxVy _ _ | .shrVx _ _
  | .ldINnn _ | .rndVxKk _ _ | .drw _ _ _ | .skp _ | .sknp _ | .ldVxDt _ | .ldVxK _
  | .ldDtVx _ | .ldStVx _ | .addIVx _ | .ldBVx _ | .ldVxI _ => true

end Sys2Proof
end

