-- ==== Sys2Proof/Decode.lean ====
section
/-! DEFINITION. Instruction words: their fields (30_encoding.md R91), their bytes (20_memory.md R69), the decoder (R94, R95,
R96, R100), total on any bytes and rejecting by name, and the encoder, written from the same tables. -/

namespace Sys2Proof

/-- Class selector, bits 15..12 (R91). -/
def fieldClass (w : Word) : Nat := (w.extractLsb' 12 4).toNat

/-- Register index x, bits 11..8 (R91). -/
def fieldX (w : Word) : Reg := ⟨(w.extractLsb' 8 4).toNat, (w.extractLsb' 8 4).isLt⟩

/-- Register index y, bits 7..4 (R91). -/
def fieldY (w : Word) : Reg := ⟨(w.extractLsb' 4 4).toNat, (w.extractLsb' 4 4).isLt⟩

/-- Low nibble n, bits 3..0 (R91). -/
def fieldN (w : Word) : Fin 16 := ⟨(w.extractLsb' 0 4).toNat, (w.extractLsb' 0 4).isLt⟩

/-- Low byte kk, bits 7..0 (R91). -/
def fieldKk (w : Word) : Byte := w.extractLsb' 0 8

/-- Low 12 bits nnn, bits 11..0 (R91). -/
def fieldNnn (w : Word) : Imm12 := w.extractLsb' 0 12

/-- The word of two consecutive bytes: the first is bits 15..8 (R69; PRESUMED by the spec, decision D1, log 1). -/
def wordOfBytes (first second : Byte) : Word := BitVec.ofNat 16 (first.toNat * 256 + second.toNat)

/-- The two bytes of a word, as they lie in memory (R69). -/
def bytesOfWord (w : Word) : Byte × Byte := (w.extractLsb' 8 8, w.extractLsb' 0 8)

/-- Why bytes are no instruction. The first four are R95's right-hand column, all UnhandledInstruction (R96). -/
inductive DecodeError where
  /-- a word of class 5, 9 or B -/
  | unhandledClass (c : Nat)
  /-- a class-8 word with sub-opcode n outside 0, 2, 3, 4, 5, 6 (R152) -/
  | unhandledAlu (n : Fin 16)
  /-- a class-E word with low byte outside 9E, A1 -/
  | unhandledKey (kk : Byte)
  /-- a class-F word with low byte outside 07, 0A, 15, 18, 1E, 33, 65 -/
  | unhandledMisc (kk : Byte)
  /-- fewer than two bytes were given -/
  | truncated
deriving DecidableEq, Repr

/-- Class 0: rows 1 and 2 take precedence over row 3 (R94, R100). -/
def decodeClass0 (w : Word) : Instr :=
  if w = 0x00E0#16 then .cls else if w = 0x00EE#16 then .ret else .sys (fieldNnn w)

/-- Class 8, by n (R94 rows 10 to 15). -/
def decodeClass8 (w : Word) : Except DecodeError Instr :=
  match (fieldN w).val with
  | 0 => .ok (.ldVxVy (fieldX w) (fieldY w))
  | 2 => .ok (.andVxVy (fieldX w) (fieldY w))
  | 3 => .ok (.xorVxVy (fieldX w) (fieldY w))
  | 4 => .ok (.addVxVy (fieldX w) (fieldY w))
  | 5 => .ok (.subVxVy (fieldX w) (fieldY w))
  | 6 => .ok (.shrVx (fieldX w) (fieldY w))
  | _ => .error (.unhandledAlu (fieldN w))

/-- Class E, by kk (R94 rows 19 and 20). -/
def decodeClassE (w : Word) : Except DecodeError Instr :=
  match (fieldKk w).toNat with
  | 0x9E => .ok (.skp (fieldX w))
  | 0xA1 => .ok (.sknp (fieldX w))
  | _ => .error (.unhandledKey (fieldKk w))

/-- Class F, by kk (R94 rows 21 to 27). -/
def decodeClassF (w : Word) : Except DecodeError Instr :=
  match (fieldKk w).toNat with
  | 0x07 => .ok (.ldVxDt (fieldX w))
  | 0x0A => .ok (.ldVxK (fieldX w))
  | 0x15 => .ok (.ldDtVx (fieldX w))
  | 0x18 => .ok (.ldStVx (fieldX w))
  | 0x1E => .ok (.addIVx (fieldX w))
  | 0x33 => .ok (.ldBVx (fieldX w))
  | 0x65 => .ok (.ldVxI (fieldX w))
  | _ => .error (.unhandledMisc (fieldKk w))

/-- The instruction of a word, by class and then by discriminant (R94); a function of the word alone (R100). -/
def decodeWord (w : Word) : Except DecodeError Instr :=
  match fieldClass w with
  | 0x0 => .ok (decodeClass0 w)
  | 0x1 => .ok (.jp (fieldNnn w))
  | 0x2 => .ok (.call (fieldNnn w))
  | 0x3 => .ok (.seVxKk (fieldX w) (fieldKk w))
  | 0x4 => .ok (.sneVxKk (fieldX w) (fieldKk w))
  | 0x6 => .ok (.ldVxKk (fieldX w) (fieldKk w))
  | 0x7 => .ok (.addVxKk (fieldX w) (fieldKk w))
  | 0x8 => decodeClass8 w
  | 0xA => .ok (.ldINnn (fieldNnn w))
  | 0xC => .ok (.rndVxKk (fieldX w) (fieldKk w))
  | 0xD => .ok (.drw (fieldX w) (fieldY w) (fieldN w))
  | 0xE => decodeClassE w
  | 0xF => decodeClassF w
  | c => .error (.unhandledClass c)

/-- Decode the first instruction of a byte sequence and give the bytes after it (R90: every instruction is two
bytes). -/
def decodeBytes : List Byte → Except DecodeError (Instr × List Byte)
  | first :: second :: rest =>
    match decodeWord (wordOfBytes first second) with
    | .ok i => .ok (i, rest)
    | .error e => .error e
  | _ => .error .truncated

/-- Format NNN (R92): class and 12-bit immediate. -/
def wordNnn (cls : Nat) (nnn : Imm12) : Word := BitVec.ofNat 16 (cls * 4096 + nnn.toNat)

/-- Formats XKK and XOO (R92): class, register, low byte. -/
def wordXkk (cls : Nat) (x : Reg) (kk : Byte) : Word := BitVec.ofNat 16 (cls * 4096 + x.val * 256 + kk.toNat)

/-- Formats XYO and XYN (R92): class, two registers, low nibble. -/
def wordXyn (cls : Nat) (x y : Reg) (n : Fin 16) : Word :=
  BitVec.ofNat 16 (cls * 4096 + x.val * 256 + y.val * 16 + n.val)

/-- The word of an instruction (R92, R94). -/
def encode : Instr → Word
  | .cls => 0x00E0#16
  | .ret => 0x00EE#16
  | .sys nnn => wordNnn 0x0 nnn
  | .jp nnn => wordNnn 0x1 nnn
  | .call nnn => wordNnn 0x2 nnn
  | .seVxKk x kk => wordXkk 0x3 x kk
  | .sneVxKk x kk => wordXkk 0x4 x kk
  | .ldVxKk x kk => wordXkk 0x6 x kk
  | .addVxKk x kk => wordXkk 0x7 x kk
  | .ldVxVy x y => wordXyn 0x8 x y 0
  | .andVxVy x y => wordXyn 0x8 x y 2
  | .xorVxVy x y => wordXyn 0x8 x y 3
  | .addVxVy x y => wordXyn 0x8 x y 4
  | .subVxVy x y => wordXyn 0x8 x y 5
  | .shrVx x y => wordXyn 0x8 x y 6
  | .ldINnn nnn => wordNnn 0xA nnn
  | .rndVxKk x kk => wordXkk 0xC x kk
  | .drw x y n => wordXyn 0xD x y n
  | .skp x => wordXkk 0xE x 0x9E#8
  | .sknp x => wordXkk 0xE x 0xA1#8
  | .ldVxDt x => wordXkk 0xF x 0x07#8
  | .ldVxK x => wordXkk 0xF x 0x0A#8
  | .ldDtVx x => wordXkk 0xF x 0x15#8
  | .ldStVx x => wordXkk 0xF x 0x18#8
  | .addIVx x => wordXkk 0xF x 0x1E#8
  | .ldBVx x => wordXkk 0xF x 0x33#8
  | .ldVxI x => wordXkk 0xF x 0x65#8

/-- The bytes of an instruction, in the order they lie in memory (R69). -/
def encodeBytes (i : Instr) : List Byte := [(bytesOfWord (encode i)).1, (bytesOfWord (encode i)).2]

/-- The instruction the decoder reads from the table word whose bits are `w`, numbered as spec/opcode_table.json numbers
them, every bit above `nbits` being 0: the word's bytes are laid out as R69 says and given to the decoder. -/
def decodeTableWord (nbits w : Nat) : Option Instr :=
  let bytes := bytesOfWord (BitVec.ofNat 16 (w % 2 ^ nbits))
  match decodeBytes [bytes.1, bytes.2] with
  | .ok (i, _) => some i
  | .error _ => none

end Sys2Proof
end

