-- ==== Sys2Proof/Config.lean ====
section
/-! DEFINITION. What is fixed for the machine (00_scope.md R5) and the free values the spec leaves open
(constants without a body: nothing can be proved of their values). -/

namespace Sys2Proof.Config

/-- MEM_SIZE: addresses 0x000..0xFFF (R5, R60). -/
@[simp] abbrev memSize : Nat := 4096

/-- ROM_BASE: where Init puts the image and where execution starts (R5, R40). -/
@[simp] abbrev romBase : Nat := 0x200

/-- ROM_MAX = 4096 − 512 bytes (R5, R261). -/
@[simp] abbrev romMax : Nat := 3584

/-- STACK_DEPTH: sixteen nested calls (R5, R30; decision D3, log 10). -/
@[simp] abbrev stackDepth : Nat := 16

/-- DISP_W (R5, R35). -/
@[simp] abbrev dispWidth : Nat := 64

/-- DISP_H (R5, R35). -/
@[simp] abbrev dispHeight : Nat := 32

/-- TIMER_HZ (R5, R230); no rule of the model depends on it (R8). -/
@[simp] abbrev timerHz : Nat := 60

/-- CPU_HZ, OPEN in R5 (decision D17): some number, used by no rule. Log 23. -/
opaque cpuHz : Nat

/-- FREE VALUE: the byte that the n-th draw of the random source gives (R41: "a free input of each RND step, under
no law"). Log 6. -/
opaque draw8 : Nat → Byte

/-- FREE VALUE behind KEY_SELECT (R196): an arbitrary number for each key vector, which picks among the pressed keys
(`Machine.keySelect`). Log 7. -/
opaque keyChoice : BitVec 16 → Nat

/-- Parameter DRW_CORNER (93_implementation_defined.md U3): what a DRW across the bottom-right corner does with the
pixels that overflow both edges. -/
inductive DrwCorner where
  /-- they toggle nothing and cause no collision (R175) -/
  | lost
  /-- such a DRW is refused -/
  | refuse
deriving DecidableEq, Repr

/-- The spec's default of DRW_CORNER (decision D8). DESIGN CHOICE of the spec, unsafe: log 8. -/
def drwCorner : DrwCorner := .lost

/-- Parameter VF_ALIAS (93_implementation_defined.md U6): how SUB and SHR read their operands when one is VF. -/
inductive VfAlias where
  /-- all operands are read before any write (R23) -/
  | readFirst
  /-- the clauses of the source's row are executed in turn, and registers are read again -/
  | sequential
  /-- the three cases in which the two readings differ are refused -/
  | refuse
deriving DecidableEq, Repr

/-- The spec's default of VF_ALIAS (decision D6). DESIGN CHOICE of the spec, unsafe: log 9. -/
def vfAlias : VfAlias := .readFirst

end Sys2Proof.Config
end

