-- ==== Sys2Proof/Machine/State.lean ====
section
/-! DEFINITION. The state of the machine (10_state.md R45) with the inputs its instructions read and the list of agent
steps to come, the reasons a step can stop, and the state after reset (R40). -/

namespace Sys2Proof.Machine

/-- The fault causes of R220. A fault is an effect of the machine (R224), not a stop of the model: see `raise`. -/
inductive FaultKind where
  | unhandledInstruction
  | stackOverflow
  | stackUnderflow
  | memRange
  | keyIndex
deriving DecidableEq, Repr

/-- Why the machine stops. -/
inductive Fault where
  /-- The HOST move Init with an image longer than 3584 bytes: "refused: no state is constructed or changed, and the
  machine cannot be started" (R261). Raised by `hostInit` alone. Safe: nothing is claimed of the machine afterwards.
  Log 16. -/
  | initRomTooLong
deriving DecidableEq, Repr

/-- Why the model gives no meaning. -/
inductive Refusal where
  /-- An instruction that has no meaning yet. No arm of `exec` says it: every instruction is modelled. Safe. -/
  | notModelled (mnemonic : String)
  /-- A HOST move made outside its precondition (R236), which the host may not do (R245: "A model gives these no
  move"). Raised by `hostInit`, `hostStart`, `hostAbort`. Safe. Log 17. -/
  | hostMoveExcluded
  /-- A DRW across the bottom-right corner while DRW_CORNER is `refuse` (U3), which is not the default. Raised by
  `execDrwWith`, never by `exec`. Safe. Log 8. -/
  | drwCorner
  /-- SUB or SHR in one of the three cases of U6 while VF_ALIAS is `refuse`, which is not the default. Raised by
  `execSubVxVyWith` and `execShrVxWith`, never by `exec`. Safe. Log 9. -/
  | vfAlias
deriving DecidableEq, Repr

/-- The moves of the HOST agent (R236). -/
inductive HostMove where
  | init (rom : List Byte)
  | start
  | abort
  | keyDown (k : Key)
  | keyUp (k : Key)
  | readDisplay
  | readTimers
  | readFault
deriving DecidableEq, Repr

/-- One atomic step of one of the three agents (R6). -/
inductive Turn where
  | cpu
  | tick
  | host (m : HostMove)
deriving DecidableEq, Repr

/-- The general registers V0..VF (R20). -/
abbrev Regs := Vector Byte 16

/-- The call stack: STACK[s] stands at index s − 1 (R29). -/
abbrev Stack := Vector Word 16

/-- The display: 32 rows of 64 cells, row 0 and column 0 first (R35). -/
abbrev Display := Vector (Vector Bool 64) 32

/-- Memory: the cells that differ from what an unlisted address reads as, by strictly rising address
(`Memory.wf`). -/
abbrev Memory := List Host.Cell

/-- The state. -/
structure State where
  /-- V[0..15] (R20); V[15] is VF (R21) -/
  v : Regs
  /-- I (R24) -/
  i : Word
  /-- PC (R25) -/
  pc : Word
  /-- SP, 0 (empty) to 16 (full) (R30; log 20) -/
  sp : Fin 17
  /-- STACK[1..16] (R29) -/
  stack : Stack
  /-- DT, the delay timer (R31) -/
  dt : Byte
  /-- ST, the sound timer (R32) -/
  st : Byte
  /-- MEM[0..4095] (R34) -/
  mem : Memory
  /-- DISP (R35) -/
  disp : Display
  /-- FAULT: the CPU agent has faulted and is halted (R42) -/
  fault : Bool
  /-- FCODE: the fault code, 0 for none (R42, R220) -/
  fcode : BitVec 3
  /-- FPC: the PC of the faulting instruction (R42) -/
  fpc : Word
  /-- FIW: the word of the faulting instruction, 0 for a fetch fault (R42) -/
  fiw : Word
  /-- RUN: the machine is started (R43) -/
  run : Bool
  /-- KEYS, an input: bit k is KEY[k], 1 = pressed (R38) -/
  keys : BitVec 16
  /-- The model's own: Abort has been moved since the last Init (R239; log 17). -/
  aborted : Bool
  /-- The model's own: the agent steps to come, next first; after the last one every turn is the CPU's (log 4). -/
  turns : List Turn
  /-- The model's own: how many bytes RND has drawn (R41; log 6). -/
  draws : Nat
deriving DecidableEq, Repr

/-- The cells of a clear display. -/
def Display.clear : Display := Vector.replicate 32 (Vector.replicate 64 false)

/-- The state after reset: Init with the empty image (R40, R260; values of decision D12, log 2), before Start, with no
key down (log 3), no turn scheduled (log 4) and nothing drawn (log 6). -/
def State.reset : State where
  v := Vector.replicate 16 0#8
  i := 0x0000#16
  pc := 0x0200#16
  sp := 0
  stack := Vector.replicate 16 0x0000#16
  dt := 0x00#8
  st := 0x00#8
  mem := []
  disp := Display.clear
  fault := false
  fcode := 0#3
  fpc := 0x0000#16
  fiw := 0x0000#16
  run := false
  keys := 0x0000#16
  aborted := false
  turns := []
  draws := 0

end Sys2Proof.Machine
end

