-- ==== Sys2Proof/Machine/Ops.lean ====
section
/-! DEFINITION. The named operations over memory, registers, the call stack, the program counter, the display, the
keys and the fault record, which every meaning uses. -/

namespace Sys2Proof.Machine

/-! ### Memory (20_memory.md) -/

/-- What an address that is not listed reads as: memory is zero but for the ROM image (R40, R260). Log 19. -/
def Memory.unlisted : Byte := 0x00#8

/-- The canonical form: addresses strictly rising, all inside [0, 4095] (R60), no cell listed that reads as an
unlisted one does. -/
abbrev Memory.wf (m : Memory) : Prop :=
  m.Pairwise (fun p q => p.1 < q.1) ∧ ∀ p ∈ m, p.1 < Config.memSize ∧ p.2 ≠ Memory.unlisted

/-- The byte at an address. -/
def Memory.read : Memory → Nat → Byte
  | [], _ => Memory.unlisted
  | (b, w) :: rest, a => if a = b then w else Memory.read rest a

/-- The memory with one byte written; the value an unlisted address reads as is not listed. -/
def Memory.write : Memory → Nat → Byte → Memory
  | [], a, v => if v = Memory.unlisted then [] else [(a, v)]
  | (b, w) :: rest, a, v =>
    if a < b then (if v = Memory.unlisted then (b, w) :: rest else (a, v) :: (b, w) :: rest)
    else if a = b then (if v = Memory.unlisted then rest else (a, v) :: rest)
    else (b, w) :: Memory.write rest a v

/-- The memory with bytes written to consecutive addresses from `a`. -/
def Memory.writeBytes (m : Memory) (a : Nat) : List Byte → Memory
  | [] => m
  | v :: vs => (Memory.writeBytes m (a + 1) vs).write a v

/-- The byte at an address of the state's memory. -/
def State.readByte (s : State) (a : Nat) : Byte := s.mem.read a

/-- `MemRead(addr, n)` (R66): the n bytes from `addr`, or nothing where the access would raise MemRange. The address
is a natural number and is not wrapped (R64; log 11). -/
def memRead (s : State) (addr n : Nat) : Option (List Byte) :=
  if 0 < n ∧ addr + n > Config.memSize then none
  else some ((List.range n).map fun k => s.readByte (addr + k))

/-- `MemWrite(addr, n, v)` (R67): the bytes written from `addr`, or nothing where the access would raise MemRange, and
then no byte is written. -/
def memWrite (s : State) (addr : Nat) (bytes : List Byte) : Option State :=
  if addr + bytes.length > Config.memSize then none
  else some { s with mem := s.mem.writeBytes addr bytes }

/-! ### General registers (10_state.md R20) -/

/-- V[r]. -/
def State.reg (s : State) (r : Reg) : Byte := s.v[r.val]

/-- V[r] <- b. -/
def State.setReg (s : State) (r : Reg) (b : Byte) : State := { s with v := s.v.set r.val b }

/-- Registers written from `loc` upward, one byte each (R211). -/
def Regs.load (v : Regs) (loc : Nat) : List Byte → Regs
  | [] => v
  | b :: bs => Regs.load (v.setIfInBounds loc b) (loc + 1) bs

/-! ### Program counter (10_state.md R25 to R28) -/

/-- NextPC = (PC + 2) mod 65536 (R10, R28). -/
def State.nextPC (s : State) : Word := s.pc + 2#16

/-- SkipPC = (PC + 4) mod 65536 (R10, R28). -/
def State.skipPC (s : State) : Word := s.pc + 4#16

/-- PC <- w. -/
def State.setPc (s : State) (w : Word) : State := { s with pc := w }

/-- PC <- NextPC. -/
def State.advance (s : State) : State := s.setPc s.nextPC

/-- PC <- SkipPC if the condition holds, else NextPC (R26, R124). -/
def State.skipIf (s : State) (c : Bool) : State := s.setPc (if c then s.skipPC else s.nextPC)

/-! ### Call stack (10_state.md R29, R30) -/

/-- STACK[n + 1]. -/
def State.slot (s : State) (n : Fin 16) : Word := s.stack[n.val]

/-- SP <- SP + 1; STACK[SP] <- w: nothing where the stack is full (R30, R123). -/
def State.push (s : State) (w : Word) : Option State :=
  if h : s.sp.val < 16 then
    some { s with sp := ⟨s.sp.val + 1, by omega⟩, stack := s.stack.set s.sp.val w }
  else none

/-- STACK[SP], and SP <- SP − 1: nothing where the stack is empty (R30, R121). The slot keeps its value. -/
def State.pop (s : State) : Option (Word × State) :=
  if s.sp.val = 0 then none
  else
    some (s.slot ⟨s.sp.val - 1, by have := s.sp.isLt; omega⟩,
      { s with sp := ⟨s.sp.val - 1, by have := s.sp.isLt; omega⟩ })

/-! ### Fault entry (60_exceptions.md R220, R224) -/

/-- The code of a fault (R220; the numbers are the spec's decision D13, log 13). -/
def FaultKind.code : FaultKind → BitVec 3
  | .unhandledInstruction => 1#3
  | .stackOverflow => 2#3
  | .stackUnderflow => 3#3
  | .memRange => 4#3
  | .keyIndex => 5#3

/-- The state after `raise F(info)`: the fault record is written and nothing else changes; `iw` is the instruction
word, or 0 where the fault arose in fetch (R224). There is no return from a fault (R226). Log 13. -/
def State.raised (s : State) (k : FaultKind) (iw : Word) : State :=
  { s with fault := true, fcode := k.code, fpc := s.pc, fiw := iw }

/-- Taking a fault: a next state. -/
def raise (k : FaultKind) (iw : Word) (s : State) : Host.Outcome State Fault Refusal := .next (s.raised k iw)

/-! ### Display (42_display.md) -/

/-- DISP[row][col]. -/
def Display.cell (d : Display) (row : Fin 32) (col : Fin 64) : Bool := (d[row.val])[col.val]

/-- DISP[row][col] <- DISP[row][col] ^ 1. -/
def Display.toggle (d : Display) (row : Fin 32) (col : Fin 64) : Display :=
  d.set row.val ((d[row.val]).set col.val (!d.cell row col))

/-- The cell of a sprite pixel at the unwrapped position (row, col) = (Y0 + r, X0 + c): none past both edges (R175),
32 rows up past the bottom, 64 columns left past the right edge (R172). As row ≤ 46 and col ≤ 70, those are the
remainders by 32 and 64. -/
def spriteCell (row col : Nat) : Option (Fin 32 × Fin 64) :=
  if row ≥ Config.dispHeight ∧ col ≥ Config.dispWidth then none
  else some (⟨row % 32, Nat.mod_lt _ (by decide)⟩, ⟨col % 64, Nat.mod_lt _ (by decide)⟩)

/-- One sprite pixel: toggle its cell and note a collision if the cell was 1 (R172). -/
def drawPixel (row col : Nat) (acc : Display × Bool) : Display × Bool :=
  match spriteCell row col with
  | none => acc
  | some (r, c) => (acc.1.toggle r c, acc.2 || acc.1.cell r c)

/-- The pixels `c` of one sprite byte, most significant bit first (R171): those that are 1 are drawn. -/
def drawPixels (b : Byte) (row x0 : Nat) : List Nat → Display × Bool → Display × Bool
  | [], acc => acc
  | c :: cs, acc => drawPixels b row x0 cs (if b.getLsbD (7 - c) then drawPixel row (x0 + c) acc else acc)

/-- The rows of a sprite, from the row `row` downward (R172): the display after it, and whether a toggled cell was
1. -/
def drawSprite (x0 : Nat) : Nat → List Byte → Display × Bool → Display × Bool
  | _, [], acc => acc
  | row, b :: bs, acc => drawSprite x0 (row + 1) bs (drawPixels b row x0 [0, 1, 2, 3, 4, 5, 6, 7] acc)

/-! ### Keys (10_state.md R38, 43_keypad_timers.md R196) -/

/-- KEY[k]. -/
def State.key (s : State) (k : Key) : Bool := s.keys.getLsbD k.val

/-- The indices of the pressed keys, rising. -/
def pressedKeys (keys : BitVec 16) : List Key := (List.finRange 16).filter fun k => keys.getLsbD k.val

/-- KEY_SELECT (R196): one of the pressed keys, which of them the free value `Config.keyChoice` decides; with one key
down it is that key. (With no key down no instruction asks.) Log 7. -/
def keySelect (keys : BitVec 16) : Key :=
  (pressedKeys keys).getD (Config.keyChoice keys % (pressedKeys keys).length) 0

/-! ### Outputs and agents -/

/-- SND = 1 if ST ≠ 0 (R33; decision D22, log 21). -/
def State.snd (s : State) : Bool := s.st != 0#8

/-- Whose step is next: the head of the turns. When the list is used up the CPU steps: that ends a finite schedule and
says nothing of what comes later (log 4); claims about runs without end are made of fair executions (log 23). -/
def State.nextTurn (s : State) : Turn := s.turns.headD .cpu

/-- The state with the next turn taken off the list. -/
def State.popTurn (s : State) : State := { s with turns := s.turns.tail }

/-- The CPU agent has a step (R43). -/
def State.cpuEnabled (s : State) : Bool := s.run && !s.fault

/-- The TIMER agent has a step (R43). -/
def State.timerEnabled (s : State) : Bool := s.run

/-- The instruction word at PC, or nothing where the fetch raises MemRange (R63, R69). -/
def State.fetchWord (s : State) : Option Word :=
  if s.pc.toNat + 1 ≥ Config.memSize then none
  else some (wordOfBytes (s.readByte s.pc.toNat) (s.readByte (s.pc.toNat + 1)))

end Sys2Proof.Machine
end

