-- ==== Sys2Proof/Machine/Agents.lean ====
section
/-! DEFINITION. The steps of the TIMER agent (60_exceptions.md R230) and of the HOST agent (R236 to R243, R245;
70_reset_and_hazards.md R260, R261), and what the HOST's read moves return. -/

namespace Sys2Proof.Machine

/-- One timer, one tick: down by one, clamped at 0 (R230). -/
def timerDown (t : Byte) : Byte := if t = 0#8 then 0#8 else t - 1#8

/-- One tick (R230); no step while RUN = 0 (R43; log 5). -/
def timerTick (s : State) : State :=
  if s.timerEnabled then { s with dt := timerDown s.dt, st := timerDown s.st } else s

/-- The memory that Init leaves: zero but for the image at 0x200 (R260). -/
def romImage (rom : List Byte) : Memory := Memory.writeBytes [] Config.romBase rom

/-- The state that Init builds (R40, R260): the reset state with the image loaded. KEY, an input, is not touched, nor
are the turns to come and the count of draws. -/
def State.initialised (s : State) (rom : List Byte) : State :=
  { State.reset with mem := romImage rom, keys := s.keys, turns := s.turns, draws := s.draws }

/-- Init(rom): not while RUN = 1 (R245; log 17), and no image over 3584 bytes (R261; log 16). -/
def hostInit (rom : List Byte) (s : State) : Host.Outcome State Fault Refusal :=
  if s.run then .refused .hostMoveExcluded
  else if rom.length > Config.romMax then .fault .initRomTooLong
  else .next (s.initialised rom)

/-- Start: RUN <- 1 (R238), when RUN = 0 and not yet aborted (R236; log 17). -/
def hostStart (s : State) : Host.Outcome State Fault Refusal :=
  if s.run || s.aborted then .refused .hostMoveExcluded else .next { s with run := true }

/-- Abort: RUN <- 0 for good (R239), when RUN = 1 (R236; log 17). -/
def hostAbort (s : State) : Host.Outcome State Fault Refusal :=
  if s.run then .next { s with run := false, aborted := true } else .refused .hostMoveExcluded

/-- KEY[k] <- b (R240). -/
def State.setKey (s : State) (k : Key) (b : Bool) : State :=
  { s with keys := if b then s.keys ||| (1#16 <<< k.val) else s.keys &&& ~~~(1#16 <<< k.val) }

/-- One move of the HOST (R236); the read moves change no state (R241 to R243; log 22). -/
def hostMove (m : HostMove) (s : State) : Host.Outcome State Fault Refusal :=
  match m with
  | .init rom => hostInit rom s
  | .start => hostStart s
  | .abort => hostAbort s
  | .keyDown k => .next (s.setKey k true)
  | .keyUp k => .next (s.setKey k false)
  | .readDisplay => .next s
  | .readTimers => .next s
  | .readFault => .next s

/-- ReadDisplay returns the cells, row by row (R241). -/
def readDisplay (s : State) : List (List Bool) := s.disp.toList.map Vector.toList

/-- ReadTimers returns DT, ST and SND (R242). -/
def readTimers (s : State) : Byte × Byte × Bool := (s.dt, s.st, s.snd)

/-- The CPU state that ReadFault adds after a fault (R243). -/
structure CpuReport where
  v : Regs
  i : Word
  pc : Word
  sp : Fin 17
  stack : Stack
deriving DecidableEq, Repr

/-- What ReadFault returns (R243). -/
structure FaultReport where
  fault : Bool
  fcode : BitVec 3
  fpc : Word
  fiw : Word
  cpu : Option CpuReport
deriving DecidableEq, Repr

/-- ReadFault returns the fault record and, when FAULT = 1, the CPU state (R243). Memory is not in the report: R75's
table lists MEM among what the HOST reads on a fault report, R71 and R243 leave it out, and the model follows these
(DESIGN CHOICE, log 29). -/
def readFault (s : State) : FaultReport where
  fault := s.fault
  fcode := s.fcode
  fpc := s.fpc
  fiw := s.fiw
  cpu := if s.fault then some ⟨s.v, s.i, s.pc, s.sp, s.stack⟩ else none

/-- The sound starts between two states: SND rises (R232). -/
def soundStarts (before after : State) : Bool := !before.snd && after.snd

/-- The sound stops between two states: SND falls (R232). -/
def soundStops (before after : State) : Bool := before.snd && !after.snd

end Sys2Proof.Machine
end

