-- ==== Sys2Proof/Machine/Flags.lean ====
section
/-! DEFINITION. The values VF takes as a flag (41_alu.md R148, 42_display.md R172, 10_state.md R21), always 0 or 1. -/

namespace Sys2Proof.Machine

/-- A flag as the byte 1 or 0. -/
def flagByte (b : Bool) : Byte := if b then 1#8 else 0#8

/-- ADD Vx,Vy: the exact sum exceeds 255 (R145). -/
def addFlag (a b : Byte) : Byte := flagByte (a.toNat + b.toNat > 255)

/-- SUB: strictly greater; 0 for equal operands (R146, U17). -/
def subFlag (a b : Byte) : Byte := flagByte (a.toNat > b.toNat)

/-- SHR: the bit shifted out (R147). -/
def shrFlag (a : Byte) : Byte := flagByte (a.getLsbD 0)

/-- DRW: a toggled cell was 1 (R172). -/
def collisionFlag (coll : Bool) : Byte := flagByte coll

/-- The cases of U6 in which SUB's two readings differ: exactly one operand is VF. -/
def subAliases (x y : Reg) : Bool := (x == VF) != (y == VF)

/-- The case of U6 in which SHR's two readings differ. -/
def shrAliases (x : Reg) : Bool := x == VF

end Sys2Proof.Machine
end

