-- ==== Sys2Proof/Machine/Operands.lean ====
section
/-! DEFINITION. The operand forms (30_encoding.md R93, 44_memory.md R212): zero-extended immediates, the base address I,
sprite coordinates, the key index and the bytes of LD B,Vx. -/

namespace Sys2Proof.Machine

/-- `zext_16(nnn)`: a byte address (R93). -/
def zext16 (nnn : Imm12) : Word := nnn.setWidth 16

/-- The address of byte k of a memory operand: the natural number I + k, not wrapped (R212; log 11). -/
def State.address (s : State) (k : Nat) : Nat := s.i.toNat + k

/-- X0 = V[x] mod 64 (R171). -/
def State.spriteX (s : State) (x : Reg) : Nat := (s.reg x).toNat % Config.dispWidth

/-- Y0 = V[y] mod 32 (R171). -/
def State.spriteY (s : State) (y : Reg) : Nat := (s.reg y).toNat % Config.dispHeight

/-- A sprite of n rows at (X0, Y0) overflows both the right and the bottom edge (R175). -/
def overflowsCorner (x0 y0 n : Nat) : Bool := y0 + n > Config.dispHeight && x0 > 56

/-- The key index in V[x]: nothing where it exceeds 15 (R197; decision D11, log 12). -/
def State.keyIndex (s : State) (x : Reg) : Option Key :=
  if h : (s.reg x).toNat < 16 then some ⟨(s.reg x).toNat, h⟩ else none

/-- The three bytes that LD B,Vx stores: v / 100, the whole quotient v / 10, and v % 10 (R210). -/
def decimalBytes (v : Byte) : List Byte := [v / 100#8, v / 10#8, v % 10#8]

end Sys2Proof.Machine
end

