-- ==== Sys2Proof/Machine/Alu.lean ====
section
/-! DEFINITION. Register loads, arithmetic and logic, the index register and RND (41_alu.md). -/

namespace Sys2Proof.Machine

/-- LD Vx,kk (R140). -/
def execLdVxKk (x : Reg) (kk : Byte) (s : State) : Host.Outcome State Fault Refusal := .next (s.setReg x kk).advance

/-- ADD Vx,kk: modulo 256, no flag (R141). -/
def execAddVxKk (x : Reg) (kk : Byte) (s : State) : Host.Outcome State Fault Refusal :=
  .next (s.setReg x (s.reg x + kk)).advance

/-- LD Vx,Vy (R142). -/
def execLdVxVy (x y : Reg) (s : State) : Host.Outcome State Fault Refusal := .next (s.setReg x (s.reg y)).advance

/-- AND Vx,Vy (R143). -/
def execAndVxVy (x y : Reg) (s : State) : Host.Outcome State Fault Refusal :=
  .next (s.setReg x (s.reg x &&& s.reg y)).advance

/-- XOR Vx,Vy (R144). -/
def execXorVxVy (x y : Reg) (s : State) : Host.Outcome State Fault Refusal :=
  .next (s.setReg x (s.reg x ^^^ s.reg y)).advance

/-- ADD Vx,Vy: the operands are read first, VF is written, then V[x] (R145, R23). -/
def execAddVxVy (x y : Reg) (s : State) : Host.Outcome State Fault Refusal :=
  .next ((s.setReg VF (addFlag (s.reg x) (s.reg y))).setReg x (s.reg x + s.reg y)).advance

/-- SUB Vx,Vy under each setting of VF_ALIAS (R146, U6; log 9). -/
def execSubVxVyWith (setting : Config.VfAlias) (x y : Reg) (s : State) : Host.Outcome State Fault Refusal :=
  let flagged := s.setReg VF (subFlag (s.reg x) (s.reg y))
  let readFirst := (flagged.setReg x (s.reg x - s.reg y)).advance
  match setting with
  | .readFirst => .next readFirst
  | .sequential => .next (flagged.setReg x (flagged.reg x - flagged.reg y)).advance
  | .refuse => if subAliases x y then .refused .vfAlias else .next readFirst

/-- SUB Vx,Vy (R146). -/
def execSubVxVy (x y : Reg) (s : State) : Host.Outcome State Fault Refusal := execSubVxVyWith Config.vfAlias x y s

/-- SHR Vx under each setting of VF_ALIAS (R147, U6; log 9). -/
def execShrVxWith (setting : Config.VfAlias) (x : Reg) (s : State) : Host.Outcome State Fault Refusal :=
  let flagged := s.setReg VF (shrFlag (s.reg x))
  let readFirst := (flagged.setReg x (s.reg x >>> 1)).advance
  match setting with
  | .readFirst => .next readFirst
  | .sequential => .next (flagged.setReg x (flagged.reg x >>> 1)).advance
  | .refuse => if shrAliases x then .refused .vfAlias else .next readFirst

/-- SHR Vx; the y field is ignored (R147, R99). -/
def execShrVx (x _y : Reg) (s : State) : Host.Outcome State Fault Refusal := execShrVxWith Config.vfAlias x s

/-- LD I,nnn (R149). -/
def execLdINnn (nnn : Imm12) (s : State) : Host.Outcome State Fault Refusal :=
  .next ({ s with i := zext16 nnn } : State).advance

/-- ADD I,Vx: modulo 65536, no mask to 12 bits, no flag (R150). -/
def execAddIVx (x : Reg) (s : State) : Host.Outcome State Fault Refusal :=
  .next ({ s with i := s.i + (s.reg x).setWidth 16 } : State).advance

/-- RND Vx,kk: a free byte, masked by kk (R151, R41; log 6). -/
def execRndVxKk (x : Reg) (kk : Byte) (s : State) : Host.Outcome State Fault Refusal :=
  .next ({ s.setReg x (Config.draw8 s.draws &&& kk) with draws := s.draws + 1 } : State).advance

end Sys2Proof.Machine
end

