-- ==== Sys2Proof/Machine/ControlFlow.lean ====
section
/-! DEFINITION. SYS, RET, JP, CALL, SE, SNE (40_control_flow.md). -/

namespace Sys2Proof.Machine

/-- SYS nnn: a no-op (R120). -/
def execSys (_nnn : Imm12) (s : State) : Host.Outcome State Fault Refusal := .next s.advance

/-- RET (R121). -/
def execRet (s : State) : Host.Outcome State Fault Refusal :=
  match s.pop with
  | none => raise .stackUnderflow (encode .ret) s
  | some (w, s') => .next (s'.setPc w)

/-- JP nnn (R122). -/
def execJp (nnn : Imm12) (s : State) : Host.Outcome State Fault Refusal := .next (s.setPc (zext16 nnn))

/-- CALL nnn: NextPC is pushed (R123; decisions D2 and D3, log 10). -/
def execCall (nnn : Imm12) (s : State) : Host.Outcome State Fault Refusal :=
  match s.push s.nextPC with
  | none => raise .stackOverflow (encode (.call nnn)) s
  | some s' => .next (s'.setPc (zext16 nnn))

/-- SE Vx,kk (R124). -/
def execSeVxKk (x : Reg) (kk : Byte) (s : State) : Host.Outcome State Fault Refusal :=
  .next (s.skipIf (s.reg x == kk))

/-- SNE Vx,kk (R125). -/
def execSneVxKk (x : Reg) (kk : Byte) (s : State) : Host.Outcome State Fault Refusal :=
  .next (s.skipIf (s.reg x != kk))

end Sys2Proof.Machine
end

