-- ==== Sys2Proof/Machine/DisplayInstr.lean ====
section
/-! DEFINITION. CLS and DRW, the sprite compositor (42_display.md). -/

namespace Sys2Proof.Machine

/-- CLS (R170). -/
def execCls (s : State) : Host.Outcome State Fault Refusal := .next ({ s with disp := Display.clear } : State).advance

/-- DRW Vx,Vy,n under each setting of DRW_CORNER (R171, R172, U3; log 8): coordinates and bytes are read, the sprite is
drawn, VF is written last. With n = 0 nothing is read and VF becomes 0 (R173; log 14). -/
def execDrwWith (corner : Config.DrwCorner) (x y : Reg) (n : Rows) (s : State) :
    Host.Outcome State Fault Refusal :=
  if corner = .refuse ∧ overflowsCorner (s.spriteX x) (s.spriteY y) n.val = true then .refused .drwCorner
  else
    match memRead s (s.address 0) n.val with
    | none => raise .memRange (encode (.drw x y n)) s
    | some bytes =>
      let drawn := drawSprite (s.spriteX x) (s.spriteY y) bytes (s.disp, false)
      .next (({ s with disp := drawn.1 } : State).setReg VF (collisionFlag drawn.2)).advance

/-- DRW Vx,Vy,n (R172). -/
def execDrw (x y : Reg) (n : Rows) (s : State) : Host.Outcome State Fault Refusal :=
  execDrwWith Config.drwCorner x y n s

end Sys2Proof.Machine
end

