-- ==== Sys2Proof/Machine/KeypadTimers.lean ====
section
/-! DEFINITION. SKP, SKNP and the loads of timers and keys (43_keypad_timers.md). -/

namespace Sys2Proof.Machine

/-- SKP Vx (R190, R197). -/
def execSkp (x : Reg) (s : State) : Host.Outcome State Fault Refusal :=
  match s.keyIndex x with
  | none => raise .keyIndex (encode (.skp x)) s
  | some k => .next (s.skipIf (s.key k))

/-- SKNP Vx (R191, R197). -/
def execSknp (x : Reg) (s : State) : Host.Outcome State Fault Refusal :=
  match s.keyIndex x with
  | none => raise .keyIndex (encode (.sknp x)) s
  | some k => .next (s.skipIf (!s.key k))

/-- LD Vx,DT (R192). -/
def execLdVxDt (x : Reg) (s : State) : Host.Outcome State Fault Refusal := .next (s.setReg x s.dt).advance

/-- LD Vx,K: with no key down nothing changes and the instruction runs again (R193). -/
def execLdVxK (x : Reg) (s : State) : Host.Outcome State Fault Refusal :=
  if s.keys = 0#16 then .next s
  else .next (s.setReg x (BitVec.ofNat 8 (keySelect s.keys).val)).advance

/-- LD DT,Vx (R194). -/
def execLdDtVx (x : Reg) (s : State) : Host.Outcome State Fault Refusal :=
  .next ({ s with dt := s.reg x } : State).advance

/-- LD ST,Vx (R195). -/
def execLdStVx (x : Reg) (s : State) : Host.Outcome State Fault Refusal :=
  .next ({ s with st := s.reg x } : State).advance

end Sys2Proof.Machine
end

