-- ==== Sys2Proof/Machine/MemoryInstr.lean ====
section
/-! DEFINITION. LD B,Vx and LD Vx,[I] (44_memory.md). -/

namespace Sys2Proof.Machine

/-- LD B,Vx (R210). -/
def execLdBVx (x : Reg) (s : State) : Host.Outcome State Fault Refusal :=
  match memWrite s (s.address 0) (decimalBytes (s.reg x)) with
  | none => raise .memRange (encode (.ldBVx x)) s
  | some s' => .next s'.advance

/-- LD Vx,[I]: V[0] to V[x] (R211). -/
def execLdVxI (x : Reg) (s : State) : Host.Outcome State Fault Refusal :=
  match memRead s (s.address 0) (x.val + 1) with
  | none => raise .memRange (encode (.ldVxI x)) s
  | some bytes => .next ({ s with v := Regs.load s.v 0 bytes } : State).advance

end Sys2Proof.Machine
end

