-- ==== Sys2Proof/Machine/Cpu.lean ====
section
/-! DEFINITION. The step of the CPU agent: fetch, decode, execute (30_encoding.md R97). -/

namespace Sys2Proof.Machine

/-- Decode and execute a fetched word; a word that is no instruction raises UnhandledInstruction (R96). -/
def runWord (w : Word) (s : State) : Host.Outcome State Fault Refusal :=
  match decodeWord w with
  | .error _ => raise .unhandledInstruction w s
  | .ok i => exec i s

/-- One step of the CPU agent, with the fault priority fetch, decode, execute (R97, R223); no step while RUN = 0 or
FAULT = 1 (R43; log 5). -/
def cpuStep (s : State) : Host.Outcome State Fault Refusal :=
  if s.cpuEnabled then
    match s.fetchWord with
    | none => raise .memRange 0x0000#16 s
    | some w => runWord w s
  else .next s

/-- Where the word of `State.withFetchWord` is put: at PC if a word can be fetched there, else at 0x200. -/
def State.fetchAddress (s : State) : Nat :=
  if s.pc.toNat + 1 ≥ Config.memSize then Config.romBase else s.pc.toNat

end Sys2Proof.Machine
end

