-- ==== Sys2Proof/Machine/Schedule.lean ====
section
/-! DEFINITION. One atomic step of a given agent (00_scope.md R6), the executions that the agents' interleavings make
(R7), and the weak fairness that R8 keeps of time. -/

namespace Sys2Proof.Machine

/-- The step of one agent, or one move of the HOST. -/
def agentStep (a : Turn) (s : State) : Host.Outcome State Fault Refusal :=
  match a with
  | .cpu => cpuStep s
  | .tick => .next (timerTick s)
  | .host m => hostMove m s

/-- An execution without end: step `n` is `acts n`, taken from the state `states n`. Any sequence of agents is admitted
(R7); the schedule is the environment's, so the field `turns` plays no part (log 4). -/
def IsExecution (acts : Nat → Turn) (states : Nat → State) : Prop :=
  ∀ n, agentStep (acts n) (states n) = .next (states (n + 1))

/-- Weak fairness (R8): from every point on, the CPU agent takes another step unless RUN = 0 or FAULT = 1, and the TIMER
agent takes another step unless RUN = 0. No number of steps is given. Log 23. -/
def WeaklyFair (acts : Nat → Turn) (states : Nat → State) : Prop :=
  ∀ n, (∃ m, n ≤ m ∧ (acts m = .cpu ∨ (states m).cpuEnabled = false)) ∧
    ∃ m, n ≤ m ∧ (acts m = .tick ∨ (states m).timerEnabled = false)

/-- The step `a` from `s` executes the instruction `i`. -/
def Executes (a : Turn) (s : State) (i : Instr) : Prop :=
  a = .cpu ∧ s.cpuEnabled = true ∧ ∃ w, s.fetchWord = some w ∧ decodeWord w = .ok i

/-- The schedule in which CPU and TIMER take turns: one of the fair ones. -/
def alternating (n : Nat) : Turn := if n % 2 = 0 then .cpu else .tick

end Sys2Proof.Machine
end

