-- ==== Sys2Proof/Machine/Step.lean ====
section
/-! DEFINITION. One step of the machine: one atomic step of the agent whose turn it is (00_scope.md R6, R7). -/

namespace Sys2Proof.Machine

/-- The next agent's step. Any finite interleaving is some list of turns (R7; log 4); runs without end, and R8's
fairness, are `IsExecution` and `WeaklyFair`. -/
def step (s : State) : Host.Outcome State Fault Refusal := agentStep s.nextTurn s.popTurn

/-- `s` with the word `w` (its low `nbits` bits) where the next fetch reads, and with what the CPU agent needs to take
the very next step: its turn, RUN = 1 and FAULT = 0, and a PC a word can be fetched at. It stands for Init and Start of
a program whose next word is `w` (log 18). -/
def State.withFetchWord (s : State) (nbits w : Nat) : State :=
  let bytes := bytesOfWord (BitVec.ofNat 16 (w % 2 ^ nbits))
  { s with
    mem := s.mem.writeBytes s.fetchAddress [bytes.1, bytes.2]
    pc := BitVec.ofNat 16 s.fetchAddress
    run := true
    fault := false
    turns := .cpu :: s.turns }

end Sys2Proof.Machine
end

