-- ==== Sys2Proof/Safety.lean ====
section
/-! DEFINITION. The terms claims are stated in: safe runs, the invariants of the machine, and the spec's tables written
as functions of the instruction and the state (independent of the decoder and of the meanings). -/

namespace Sys2Proof.Machine

/-! ### Runs and invariants -/

/-- A run of `n` agent steps that ends in `t` with no fault latched. -/
def SafeRun (n : Nat) (s t : State) : Prop := core.run n s = .next t ∧ t.fault = false

/-- The fault record as R42, R220 and R224 leave it: clear while FAULT = 0; otherwise a code 1..5 and the PC at which
the CPU agent stands. -/
def State.RecordWf (s : State) : Prop :=
  (s.fault = false → s.fcode = 0#3 ∧ s.fpc = 0x0000#16 ∧ s.fiw = 0x0000#16) ∧
  (s.fault = true → 1 ≤ s.fcode.toNat ∧ s.fcode.toNat ≤ 5 ∧ s.fpc = s.pc)

/-- The machine's invariant: memory is in canonical form, the fault record is as fault entry leaves it, and a machine
that was aborted does not run (R239). -/
def State.Inv (s : State) : Prop := s.mem.wf ∧ s.RecordWf ∧ (s.run = true → s.aborted = false)

/-- The bound of R28: PC is at most 4098 and every stack slot at most 4096, so PC arithmetic never wraps. -/
def State.PcBounded (s : State) : Prop := s.pc.toNat ≤ 4098 ∧ ∀ n : Fin 16, (s.slot n).toNat ≤ 4096

/-- The CPU agent is the next to step, and has a step (R43). -/
def State.CpuReady (s : State) : Prop := s.nextTurn = .cpu ∧ s.run = true ∧ s.fault = false

/-- (PC + k) mod 65536: NextPC for k = 2, SkipPC for k = 4 (R10). -/
def State.pcPlus (s : State) (k : Nat) : Word := BitVec.ofNat 16 (s.pc.toNat + k)

/-! ### The opcode map (30_encoding.md R94, R95) -/

/-- R94's rows in order, as (match, mask). -/
def opcodeTable : List (Word × Word) :=
  [(0x00E0, 0xFFFF), (0x00EE, 0xFFFF), (0x0000, 0xF000), (0x1000, 0xF000), (0x2000, 0xF000), (0x3000, 0xF000),
   (0x4000, 0xF000), (0x6000, 0xF000), (0x7000, 0xF000), (0x8000, 0xF00F), (0x8002, 0xF00F), (0x8003, 0xF00F),
   (0x8004, 0xF00F), (0x8005, 0xF00F), (0x8006, 0xF00F), (0xA000, 0xF000), (0xC000, 0xF000), (0xD000, 0xF000),
   (0xE09E, 0xF0FF), (0xE0A1, 0xF0FF), (0xF007, 0xF0FF), (0xF00A, 0xF0FF), (0xF015, 0xF0FF), (0xF018, 0xF0FF),
   (0xF01E, 0xF0FF), (0xF033, 0xF0FF), (0xF065, 0xF0FF)]

/-- The first row of R94 that a word selects, counted from 0 (R100). -/
def firstRow (w : Word) : Option Nat := opcodeTable.findIdx? fun p => w &&& p.2 == p.1

/-- The row of R94 that an instruction is, counted from 0. -/
def rowOf : Instr → Nat
  | .cls => 0
  | .ret => 1
  | .sys _ => 2
  | .jp _ => 3
  | .call _ => 4
  | .seVxKk _ _ => 5
  | .sneVxKk _ _ => 6
  | .ldVxKk _ _ => 7
  | .addVxKk _ _ => 8
  | .ldVxVy _ _ => 9
  | .andVxVy _ _ => 10
  | .xorVxVy _ _ => 11
  | .addVxVy _ _ => 12
  | .subVxVy _ _ => 13
  | .shrVx _ _ => 14
  | .ldINnn _ => 15
  | .rndVxKk _ _ => 16
  | .drw _ _ _ => 17
  | .skp _ => 18
  | .sknp _ => 19
  | .ldVxDt _ => 20
  | .ldVxK _ => 21
  | .ldDtVx _ => 22
  | .ldStVx _ => 23
  | .addIVx _ => 24
  | .ldBVx _ => 25
  | .ldVxI _ => 26

/-- R95's right-hand column. -/
def UnhandledWord (w : Word) : Prop :=
  w.toNat / 4096 = 0x5 ∨ w.toNat / 4096 = 0x9 ∨ w.toNat / 4096 = 0xB ∨
  (w.toNat / 4096 = 0x8 ∧ w.toNat % 16 ∉ [0, 2, 3, 4, 5, 6]) ∨
  (w.toNat / 4096 = 0xE ∧ w.toNat % 256 ∉ [0x9E, 0xA1]) ∨
  (w.toNat / 4096 = 0xF ∧ w.toNat % 256 ∉ [0x07, 0x0A, 0x15, 0x18, 0x1E, 0x33, 0x65])

/-! ### Tables over all instructions -/

/-- The fault an instruction raises at execution (R220, R221). -/
def faultCause (s : State) : Instr → Option FaultKind
  | .call _ => if s.sp.val = 16 then some .stackOverflow else none
  | .ret => if s.sp.val = 0 then some .stackUnderflow else none
  | .drw _ _ n => if 0 < n.val ∧ s.i.toNat + n.val - 1 > 4095 then some .memRange else none
  | .ldBVx _ => if s.i.toNat + 2 > 4095 then some .memRange else none
  | .ldVxI x => if s.i.toNat + x.val > 4095 then some .memRange else none
  | .skp x => if (s.reg x).toNat > 15 then some .keyIndex else none
  | .sknp x => if (s.reg x).toNat > 15 then some .keyIndex else none
  | _ => none

/-- R26's table: the PC after an instruction that does not fault. -/
def newPC (s : State) : Instr → Word
  | .jp nnn => BitVec.ofNat 16 nnn.toNat
  | .call nnn => BitVec.ofNat 16 nnn.toNat
  | .ret => s.stack.toList.getD (s.sp.val - 1) 0
  | .seVxKk x kk => if s.reg x = kk then s.pcPlus 4 else s.pcPlus 2
  | .sneVxKk x kk => if s.reg x = kk then s.pcPlus 2 else s.pcPlus 4
  | .skp x => if s.keys.getLsbD (s.reg x).toNat then s.pcPlus 4 else s.pcPlus 2
  | .sknp x => if s.keys.getLsbD (s.reg x).toNat then s.pcPlus 2 else s.pcPlus 4
  | .ldVxK _ => if s.keys = 0#16 then s.pc else s.pcPlus 2
  | _ => s.pcPlus 2

/-- R22's rows "writes V[x]", "writes V[0]..V[x]" and "writes VF as a flag". -/
def MayWriteReg (r : Reg) : Instr → Prop
  | .ldVxKk x _ | .addVxKk x _ | .ldVxVy x _ | .andVxVy x _ | .xorVxVy x _ | .rndVxKk x _ | .ldVxDt x
  | .ldVxK x => r = x
  | .addVxVy x _ | .subVxVy x _ | .shrVx x _ => r = x ∨ r = VF
  | .ldVxI x => r ≤ x
  | .drw _ _ _ => r = VF
  | _ => False

/-- R22's rows "reads V[x]" and "reads V[y]". -/
def ReadsReg (r : Reg) : Instr → Prop
  | .seVxKk x _ | .sneVxKk x _ | .addVxKk x _ | .shrVx x _ | .skp x | .sknp x | .ldDtVx x | .ldStVx x
  | .addIVx x | .ldBVx x => r = x
  | .andVxVy x y | .xorVxVy x y | .addVxVy x y | .subVxVy x y | .drw x y _ => r = x ∨ r = y
  | .ldVxVy _ y => r = y
  | _ => False

/-- The instructions that read or write a timer (R31, R32). -/
def usesTimers : Instr → Bool
  | .ldVxDt _ | .ldDtVx _ | .ldStVx _ => true
  | _ => false

/-- The instructions that read keys (R38). -/
def readsKeys : Instr → Bool
  | .skp _ | .sknp _ | .ldVxK _ => true
  | _ => false

/-- The instructions that access memory for data (R34). -/
def accessesMemory : Instr → Bool
  | .drw _ _ _ | .ldBVx _ | .ldVxI _ => true
  | _ => false

/-- The next state of an outcome changed by `f`; a stop stays as it is. -/
def mapNext (f : State → State) : Host.Outcome State Fault Refusal → Host.Outcome State Fault Refusal
  | .next s => .next (f s)
  | .fault r => .fault r
  | .refused r => .refused r

/-! ### The sprite (42_display.md R171, R172, R175) -/

/-- The cell (row, col) is the cell of a sprite pixel that is 1: pixel c of row r stands at the unwrapped position
(Y0 + r, X0 + c); past the bottom edge only it is 32 rows up, past the right edge only 64 columns left, and past both
edges it has no cell. -/
def SpriteCovers (s : State) (x y : Reg) (n : Rows) (row : Fin 32) (col : Fin 64) : Prop :=
  ∃ r c : Nat, r < n.val ∧ c < 8 ∧ (s.readByte (s.i.toNat + r)).getLsbD (7 - c) = true ∧
    (((s.reg y).toNat % 32 + r < 32 ∧ (s.reg x).toNat % 64 + c < 64 ∧
        row.val = (s.reg y).toNat % 32 + r ∧ col.val = (s.reg x).toNat % 64 + c) ∨
     (32 ≤ (s.reg y).toNat % 32 + r ∧ (s.reg x).toNat % 64 + c < 64 ∧
        row.val = (s.reg y).toNat % 32 + r - 32 ∧ col.val = (s.reg x).toNat % 64 + c) ∨
     ((s.reg y).toNat % 32 + r < 32 ∧ 64 ≤ (s.reg x).toNat % 64 + c ∧
        row.val = (s.reg y).toNat % 32 + r ∧ col.val = (s.reg x).toNat % 64 + c - 64))

end Sys2Proof.Machine
end

