-- ==== Sys2Proof/Certificates/Slice0/Obligations.lean ====
section
/-! DEFINITION. The statements for the provers. An equation `t = { s with f := t.f, … }` is a frame: every part of the
state but the fields it names is the same in `t` as in `s`, all of memory included unless `mem` is named. -/

open Sys2Proof Sys2Proof.Machine

/-! ### Encoding and decoding -/

/-- No bit of an encoding is dropped: every well-formed instruction decodes back from its word. -/
def Obligations.DecodeOfEncodeIsIdentity : Prop :=
  ∀ i : Instr, i.wf = true → decodeWord (encode i) = .ok i

/-- Each handled word is the encoding of the one instruction it decodes to, and that instruction is well formed. -/
def Obligations.EncodeOfDecodeIsIdentity : Prop :=
  ∀ (w : Word) (i : Instr), decodeWord w = .ok i → i.wf = true ∧ encode i = w

/-- R94, R100: the decoder answers the first row of the opcode table that the word selects, and no instruction where no
row is selected. -/
def Obligations.DecoderFollowsTheOpcodeTable : Prop :=
  ∀ w : Word, (match decodeWord w with | .ok i => some (rowOf i) | .error _ => none) = firstRow w

/-- R96 with R95's right-hand column: exactly those words are unhandled, and running one raises UnhandledInstruction
with the word and does nothing else. -/
def Obligations.UnhandledWordsAreExactlyTheColumn : Prop :=
  ∀ w : Word,
    ((∃ e, decodeWord w = .error e) ↔ UnhandledWord w) ∧
    (UnhandledWord w → ∀ s : State, runWord w s = raise .unhandledInstruction w s)

/-- Words written out from R94's patterns decode to their instructions (95_test_vectors.md 2.1 has most of them). -/
def Obligations.SampleWordsDecode : Prop :=
  decodeWord 0x00E0 = .ok .cls ∧ decodeWord 0x00EE = .ok .ret ∧ decodeWord 0x0FFF = .ok (.sys 0xFFF) ∧
  decodeWord 0x1ABC = .ok (.jp 0xABC) ∧ decodeWord 0x3A7F = .ok (.seVxKk 10 0x7F) ∧
  decodeWord 0x8AB4 = .ok (.addVxVy 10 11) ∧ decodeWord 0x84F6 = .ok (.shrVx 4 15) ∧
  decodeWord 0xD12F = .ok (.drw 1 2 15) ∧ decodeWord 0xE59E = .ok (.skp 5) ∧ decodeWord 0xF265 = .ok (.ldVxI 2)

/-! ### The CPU step and faults -/

/-- R97, R69: when the CPU agent is ready and the two bytes at PC (the first one high) decode to `i`, the step is
`exec i` at the state whose turn has been taken; nothing else is added around `exec`. The byte order is the spec's
decision D1 (log 1), the turns are the model's (log 4). -/
def Obligations.StepRunsTheDecodedInstruction : Prop :=
  ∀ (s : State) (i : Instr), s.CpuReady → s.pc.toNat ≤ 4094 →
    decodeWord (BitVec.ofNat 16 ((s.readByte s.pc.toNat).toNat * 256 + (s.readByte (s.pc.toNat + 1)).toNat)) = .ok i →
    step s = exec i s.popTurn

/-- R63: a fetch at PC ≥ 4095 raises MemRange, with FIW = 0 (decisions D4 and D26, logs 11 and 13). -/
def Obligations.FetchOutsideMemoryRaisesMemRange : Prop :=
  ∀ s : State, s.CpuReady → s.pc.toNat ≥ 4095 →
    step s = .next { s with turns := s.turns.tail, fault := true, fcode := 4#3, fpc := s.pc, fiw := 0x0000#16 }

/-- R96, R97, R224: the step at an unhandled word, the two bytes at PC with the first one high (byte order: decision D1,
PRESUMED, log 1), latches code 1, the PC and the word and changes nothing else (the record and its codes are decision
D13, log 13). -/
def Obligations.UnhandledWordStepLatchesTheRecord : Prop :=
  ∀ (s : State) (w : Word), s.CpuReady → s.pc.toNat ≤ 4094 →
    w = BitVec.ofNat 16 ((s.readByte s.pc.toNat).toNat * 256 + (s.readByte (s.pc.toNat + 1)).toNat) →
    UnhandledWord w →
    step s = .next { s with turns := s.turns.tail, fault := true, fcode := 1#3, fpc := s.pc, fiw := w }

/-- R220, R224: what raising each fault does (codes and record: decision D13, log 13). -/
def Obligations.RaiseWritesTheRecordOnly : Prop :=
  ∀ (s : State) (iw : Word) (k : FaultKind), ∃ t, raise k iw s = .next t ∧
    t = { s with fault := true, fcode := t.fcode, fpc := s.pc, fiw := iw } ∧
    t.fcode.toNat = (match k with
      | .unhandledInstruction => 1 | .stackOverflow => 2 | .stackUnderflow => 3 | .memRange => 4 | .keyIndex => 5)

/-- R224, R225: faults are precise. A step that latches a fault is a CPU step, leaves every state but the record as it
was, and records the PC and the fetched word, or 0 where the fetch itself faulted (decisions D13 and D26, log 13). -/
def Obligations.FaultsArePrecise : Prop :=
  ∀ s t : State, s.fault = false → step s = .next t → t.fault = true →
    s.CpuReady ∧
    t = { s with turns := s.turns.tail, fault := true, fcode := t.fcode, fpc := s.pc, fiw := s.fetchWord.getD 0x0000#16 }

/-- R226: once FAULT = 1 no step of any agent but the HOST's Init clears or changes the record, the CPU agent executes
nothing, and Init, which needs RUN = 0, rebuilds the whole state. -/
def Obligations.FaultRecordIsSticky : Prop :=
  ∀ s t : State, s.fault = true → step s = .next t →
    (∃ rom, s.nextTurn = .host (.init rom) ∧ s.run = false ∧ t = s.popTurn.initialised rom ∧ t.fault = false) ∨
    (t.fault = true ∧ t.fcode = s.fcode ∧ t.fpc = s.fpc ∧ t.fiw = s.fiw ∧
      t = { s with turns := t.turns, dt := t.dt, st := t.st, keys := t.keys, run := t.run, aborted := t.aborted })

/-- R43: with RUN = 0 neither the CPU nor the TIMER agent has a step, and with FAULT = 1 the CPU agent has none; a turn
given to such an agent passes without effect (the turns are the model's, log 5). -/
def Obligations.DisabledAgentsChangeNothing : Prop :=
  ∀ s : State,
    ((s.run = false ∨ s.fault = true) → s.nextTurn = .cpu → step s = .next { s with turns := s.turns.tail }) ∧
    (s.run = false → s.nextTurn = .tick → step s = .next { s with turns := s.turns.tail })

/-- R220, R221: every instruction answers a next state in every state; it latches a fault exactly where the table gives
one, with the code of that fault, and the twenty instructions not named in the table never fault. The table rests on the
model's logs of the spec's decisions: the stack's capacity (D3, log 10), MemRange (D4, log 11), KeyIndex (D11, log 12),
the codes (D13, log 13), and DRW with n = 0, which never faults (D7, log 14). -/
def Obligations.ExecFaultsExactlyAsTabled : Prop :=
  ∀ (i : Instr) (s : State), s.fault = false →
    (faultCause s i = none → ∃ t, exec i s = .next t ∧ t.fault = false ∧
      t.fcode = s.fcode ∧ t.fpc = s.fpc ∧ t.fiw = s.fiw) ∧
    (∀ k, faultCause s i = some k → exec i s = raise k (encode i) s)

/-- R26: the new PC of every instruction, and PC unchanged and copied to FPC by one that faults. -/
def Obligations.PcFollowsTheTable : Prop :=
  ∀ (i : Instr) (s t : State), s.fault = false → exec i s = .next t →
    (t.fault = false → t.pc = newPC s i) ∧ (t.fault = true → t.pc = s.pc ∧ t.fpc = s.pc)

/-! ### Control flow -/

/-- R120. -/
def Obligations.SysDoesNothing : Prop :=
  ∀ (nnn : Imm12) (s : State),
    (nnn ≠ 0x0E0#12 → nnn ≠ 0x0EE#12 → decodeWord (BitVec.ofNat 16 nnn.toNat) = .ok (.sys nnn)) ∧
    exec (.sys nnn) s = .next { s with pc := s.pcPlus 2 }

/-- R122: JP sets PC to the zero-extended nnn and changes nothing else. -/
def Obligations.JpSetsPc : Prop :=
  ∀ (nnn : Imm12) (s : State),
    decodeWord (BitVec.ofNat 16 (0x1000 + nnn.toNat)) = .ok (.jp nnn) ∧
    ∃ t, exec (.jp nnn) s = .next t ∧ t = { s with pc := t.pc } ∧ t.pc.toNat = nnn.toNat

/-- R121: RET loads PC from STACK[SP] and lowers SP; the slot keeps its value; on an empty stack it raises
StackUnderflow and nothing else happens. -/
def Obligations.RetPopsTheReturnAddress : Prop :=
  decodeWord 0x00EE = .ok .ret ∧
  ∀ s : State,
    (∀ n : Fin 16, s.sp.val = n.val + 1 →
      ∃ t, exec .ret s = .next t ∧ t = { s with sp := t.sp, pc := s.slot n } ∧ t.sp.val = n.val) ∧
    (s.sp.val = 0 → exec .ret s = raise .stackUnderflow 0x00EE#16 s)

/-- R123: CALL pushes NextPC and jumps; with sixteen addresses held it raises StackOverflow (what is pushed and the
capacity are decisions D2 and D3, log 10). -/
def Obligations.CallPushesNextPc : Prop :=
  ∀ (nnn : Imm12) (s : State),
    decodeWord (BitVec.ofNat 16 (0x2000 + nnn.toNat)) = .ok (.call nnn) ∧
    (∀ n : Fin 16, s.sp.val = n.val →
      ∃ t, exec (.call nnn) s = .next t ∧ t = { s with sp := t.sp, stack := t.stack, pc := t.pc } ∧
        t.sp.val = n.val + 1 ∧ t.pc.toNat = nnn.toNat ∧
        ∀ m : Fin 16, t.slot m = if m = n then s.pcPlus 2 else s.slot m) ∧
    (s.sp.val = 16 → exec (.call nnn) s = raise .stackOverflow (BitVec.ofNat 16 (0x2000 + nnn.toNat)) s)

/-- CALL and then RET resume after the CALL with the stack pointer as before, and only the used slot and PC differ
(95_test_vectors.md S9; decision D2, log 10). -/
def Obligations.CallThenRetResumesAfterTheCall : Prop :=
  ∀ (nnn : Imm12) (s : State), s.sp.val < 16 →
    ∃ t u, exec (.call nnn) s = .next t ∧ exec .ret t = .next u ∧
      u = { s with pc := s.pcPlus 2, stack := u.stack } ∧
      ∀ m : Fin 16, m.val ≠ s.sp.val → u.slot m = s.slot m

/-- R124, R125: SE skips on equality, SNE on inequality; SkipPC is PC + 4 and NextPC is PC + 2; nothing but PC
changes. -/
def Obligations.SeAndSneSkip : Prop :=
  ∀ (x : Reg) (kk : Byte) (s : State),
    decodeWord (BitVec.ofNat 16 (0x3000 + 0x100 * x.val + kk.toNat)) = .ok (.seVxKk x kk) ∧
    decodeWord (BitVec.ofNat 16 (0x4000 + 0x100 * x.val + kk.toNat)) = .ok (.sneVxKk x kk) ∧
    exec (.seVxKk x kk) s = .next { s with pc := if s.reg x = kk then s.pcPlus 4 else s.pcPlus 2 } ∧
    exec (.sneVxKk x kk) s = .next { s with pc := if s.reg x ≠ kk then s.pcPlus 4 else s.pcPlus 2 }

/-! ### Registers, arithmetic, logic -/

/-- R140, R141: the immediate forms; no flag is written, and VF is an ordinary register when x = F. -/
def Obligations.ImmediateLoadAndAdd : Prop :=
  ∀ (x : Reg) (kk : Byte) (s : State),
    decodeWord (BitVec.ofNat 16 (0x6000 + 0x100 * x.val + kk.toNat)) = .ok (.ldVxKk x kk) ∧
    decodeWord (BitVec.ofNat 16 (0x7000 + 0x100 * x.val + kk.toNat)) = .ok (.addVxKk x kk) ∧
    (∃ t, exec (.ldVxKk x kk) s = .next t ∧ t = { s with v := t.v, pc := s.pcPlus 2 } ∧
      ∀ r, t.reg r = if r = x then kk else s.reg r) ∧
    (∃ t, exec (.addVxKk x kk) s = .next t ∧ t = { s with v := t.v, pc := s.pcPlus 2 } ∧
      ∀ r, (t.reg r).toNat = if r = x then ((s.reg x).toNat + kk.toNat) % 256 else (s.reg r).toNat)

/-- R142, R143, R144: register move, AND and XOR; no flag. -/
def Obligations.MoveAndXorWriteOneRegister : Prop :=
  ∀ (x y : Reg) (s : State),
    decodeWord (BitVec.ofNat 16 (0x8000 + 0x100 * x.val + 0x10 * y.val)) = .ok (.ldVxVy x y) ∧
    decodeWord (BitVec.ofNat 16 (0x8002 + 0x100 * x.val + 0x10 * y.val)) = .ok (.andVxVy x y) ∧
    decodeWord (BitVec.ofNat 16 (0x8003 + 0x100 * x.val + 0x10 * y.val)) = .ok (.xorVxVy x y) ∧
    (∃ t, exec (.ldVxVy x y) s = .next t ∧ t = { s with v := t.v, pc := s.pcPlus 2 } ∧
      ∀ r, t.reg r = if r = x then s.reg y else s.reg r) ∧
    (∃ t, exec (.andVxVy x y) s = .next t ∧ t = { s with v := t.v, pc := s.pcPlus 2 } ∧
      ∀ r, t.reg r = if r = x then s.reg x &&& s.reg y else s.reg r) ∧
    (∃ t, exec (.xorVxVy x y) s = .next t ∧ t = { s with v := t.v, pc := s.pcPlus 2 } ∧
      ∀ r, t.reg r = if r = x then s.reg x ^^^ s.reg y else s.reg r)

/-- R145: V[x] ends as the sum modulo 256, also when x = F; otherwise VF is 1 exactly when the exact sum exceeds
255. -/
def Obligations.AddSetsCarry : Prop :=
  ∀ (x y : Reg) (s : State),
    decodeWord (BitVec.ofNat 16 (0x8004 + 0x100 * x.val + 0x10 * y.val)) = .ok (.addVxVy x y) ∧
    ∃ t, exec (.addVxVy x y) s = .next t ∧ t = { s with v := t.v, pc := s.pcPlus 2 } ∧
      (t.reg x).toNat = ((s.reg x).toNat + (s.reg y).toNat) % 256 ∧
      (x ≠ VF → (t.reg VF).toNat = if (s.reg x).toNat + (s.reg y).toNat > 255 then 1 else 0) ∧
      ∀ r, r ≠ x → r ≠ VF → t.reg r = s.reg r

/-- R146: V[x] ends as the difference modulo 256; when x ≠ F, VF is 1 exactly when V[x] was strictly greater. The cases
x = F and y = F are the spec's decision D6 (log 9). -/
def Obligations.SubSetsNotBorrow : Prop :=
  ∀ (x y : Reg) (s : State),
    decodeWord (BitVec.ofNat 16 (0x8005 + 0x100 * x.val + 0x10 * y.val)) = .ok (.subVxVy x y) ∧
    ∃ t, exec (.subVxVy x y) s = .next t ∧ t = { s with v := t.v, pc := s.pcPlus 2 } ∧
      (t.reg x).toNat = ((s.reg x).toNat + 256 - (s.reg y).toNat) % 256 ∧
      (x ≠ VF → (t.reg VF).toNat = if (s.reg x).toNat > (s.reg y).toNat then 1 else 0) ∧
      ∀ r, r ≠ x → r ≠ VF → t.reg r = s.reg r

/-- R147, R99: a logical shift right by one in place, VF the bit shifted out when x ≠ F, whatever the y field. The case
x = F is the spec's decision D6 (log 9). -/
def Obligations.ShrShiftsOutIntoVf : Prop :=
  ∀ (x y : Reg) (s : State),
    decodeWord (BitVec.ofNat 16 (0x8006 + 0x100 * x.val + 0x10 * y.val)) = .ok (.shrVx x y) ∧
    ∃ t, exec (.shrVx x y) s = .next t ∧ t = { s with v := t.v, pc := s.pcPlus 2 } ∧
      (t.reg x).toNat = (s.reg x).toNat / 2 ∧
      (x ≠ VF → (t.reg VF).toNat = (s.reg x).toNat % 2) ∧
      ∀ r, r ≠ x → r ≠ VF → t.reg r = s.reg r

/-- U6: the sequential reading of SUB and SHR differs from the one that reads first only in the three cases listed
there, and its values in those cases are the ones of the table; the setting `refuse` refuses exactly those cases. -/
def Obligations.VfAliasReadingsDifferInThreeCases : Prop :=
  ∀ (x y : Reg) (s : State),
    ((x = VF ↔ y = VF) →
      execSubVxVyWith .sequential x y s = execSubVxVyWith .readFirst x y s ∧
      execSubVxVyWith .refuse x y s = execSubVxVyWith .readFirst x y s) ∧
    (x ≠ VF → execShrVxWith .sequential x s = execShrVxWith .readFirst x s ∧
      execShrVxWith .refuse x s = execShrVxWith .readFirst x s) ∧
    (x = VF → y ≠ VF → execSubVxVyWith .refuse x y s = .refused .vfAlias ∧
      ∃ t, execSubVxVyWith .sequential x y s = .next t ∧
        t.reg VF = (if (s.reg VF).toNat > (s.reg y).toNat then 1#8 else 0#8) - s.reg y) ∧
    (x ≠ VF → y = VF → execSubVxVyWith .refuse x y s = .refused .vfAlias ∧
      ∃ t, execSubVxVyWith .sequential x y s = .next t ∧
        t.reg VF = (if (s.reg x).toNat > (s.reg VF).toNat then 1#8 else 0#8) ∧
        t.reg x = s.reg x - (if (s.reg x).toNat > (s.reg VF).toNat then 1#8 else 0#8)) ∧
    (execShrVxWith .refuse VF s = .refused .vfAlias ∧
      ∃ t, execShrVxWith .sequential VF s = .next t ∧ t.reg VF = 0#8)

/-- R149, R150: LD I,nnn and ADD I,Vx; the sum wraps at 16 bits, is not masked to 12, and no flag is written. -/
def Obligations.IndexLoadAndAdd : Prop :=
  ∀ (nnn : Imm12) (x : Reg) (s : State),
    decodeWord (BitVec.ofNat 16 (0xA000 + nnn.toNat)) = .ok (.ldINnn nnn) ∧
    decodeWord (BitVec.ofNat 16 (0xF01E + 0x100 * x.val)) = .ok (.addIVx x) ∧
    (∃ t, exec (.ldINnn nnn) s = .next t ∧ t = { s with i := t.i, pc := s.pcPlus 2 } ∧ t.i.toNat = nnn.toNat) ∧
    (∃ t, exec (.addIVx x) s = .next t ∧ t = { s with i := t.i, pc := s.pcPlus 2 } ∧
      t.i.toNat = (s.i.toNat + (s.reg x).toNat) % 65536)

/-- R151: RND writes a draw masked by kk, so its bits outside kk are 0. That the draw is `Config.draw8` of the field
`draws`, and that `draws` then goes up by one, is the model's form of a free draw (DESIGN CHOICE, log 6); nothing is
claimed of its value. -/
def Obligations.RndMasksADraw : Prop :=
  ∀ (x : Reg) (kk : Byte) (s : State),
    decodeWord (BitVec.ofNat 16 (0xC000 + 0x100 * x.val + kk.toNat)) = .ok (.rndVxKk x kk) ∧
    ∃ t, exec (.rndVxKk x kk) s = .next t ∧ t = { s with v := t.v, pc := s.pcPlus 2, draws := s.draws + 1 } ∧
      t.reg x = Config.draw8 s.draws &&& kk ∧ t.reg x &&& ~~~kk = 0#8 ∧ ∀ r, r ≠ x → t.reg r = s.reg r

/-! ### Display -/

/-- R170. -/
def Obligations.ClsClearsEveryCell : Prop :=
  decodeWord 0x00E0 = .ok .cls ∧
  ∀ s : State, ∃ t, exec .cls s = .next t ∧ t = { s with disp := t.disp, pc := s.pcPlus 2 } ∧
    ∀ row col, t.disp.cell row col = false

/-- R171, R172, R175, R177: DRW toggles exactly the cells its sprite covers, and VF is 1 exactly when one of them was 1
before; nothing else changes but PC. The lost corner is decision D8 (log 8), the placement past the right edge D9
(log 15), the old VF as a coordinate D6 (log 9), and n = 0 D7 (log 14). -/
def Obligations.DrwTogglesExactlyTheSpriteCells : Prop :=
  ∀ (x y : Reg) (n : Rows) (s : State),
    decodeWord (BitVec.ofNat 16 (0xD000 + 0x100 * x.val + 0x10 * y.val + n.val)) = .ok (.drw x y n) ∧
    ((n.val = 0 ∨ s.i.toNat + n.val ≤ 4096) →
      ∃ t, exec (.drw x y n) s = .next t ∧ t = { s with v := t.v, disp := t.disp, pc := s.pcPlus 2 } ∧
        (∀ row col, t.disp.cell row col ≠ s.disp.cell row col ↔ SpriteCovers s x y n row col) ∧
        (t.reg VF = 1#8 ↔ ∃ row col, SpriteCovers s x y n row col ∧ s.disp.cell row col = true) ∧
        (t.reg VF = 0#8 ∨ t.reg VF = 1#8) ∧
        ∀ r, r ≠ VF → t.reg r = s.reg r)

/-- R176 (b): two equal DRWs. For every x and y the display changes exactly at the cells that one of the two draws covers
and the other does not: with x or y = F the first writes a coordinate, so the second may draw elsewhere. With neither F
the display is restored, and by R172 the second VF is 1 exactly when a covered cell was 0 before both (R176's own remark
does not speak of a display on which all covered cells are 1 beforehand, log 28). Decisions D6, D7, D8 and D9, logs 9,
14, 8 and 15. -/
def Obligations.DrwTwiceRestoresTheDisplay : Prop :=
  ∀ (x y : Reg) (n : Rows) (s : State), (n.val = 0 ∨ s.i.toNat + n.val ≤ 4096) →
    ∃ t u, exec (.drw x y n) s = .next t ∧ exec (.drw x y n) t = .next u ∧
      (∀ row col, u.disp.cell row col ≠ s.disp.cell row col ↔
        ¬ (SpriteCovers s x y n row col ↔ SpriteCovers t x y n row col)) ∧
      (x ≠ VF → y ≠ VF → u.disp = s.disp ∧
        (u.reg VF = 1#8 ↔ ∃ row col, SpriteCovers s x y n row col ∧ s.disp.cell row col = false))

/-- R64, R172, R173: a sprite that reaches past address 4095 raises MemRange and draws nothing; with n = 0 nothing is
read or drawn whatever I holds, and VF becomes 0 (decisions D4 and D7, logs 11 and 14). -/
def Obligations.DrwRangeFaultAndNoRows : Prop :=
  ∀ (x y : Reg) (n : Rows) (s : State),
    (0 < n.val → s.i.toNat + n.val - 1 > 4095 →
      exec (.drw x y n) s = raise .memRange (BitVec.ofNat 16 (0xD000 + 0x100 * x.val + 0x10 * y.val + n.val)) s) ∧
    (n.val = 0 → ∃ t, exec (.drw x y n) s = .next t ∧ t = { s with v := t.v, pc := s.pcPlus 2 } ∧
      ∀ r, t.reg r = if r = VF then 0#8 else s.reg r)

/-- U3: under `refuse` a DRW that overflows both edges is refused and every other one is as under `lost`, the setting of
`exec` (log 8). -/
def Obligations.DrwCornerSettings : Prop :=
  ∀ (x y : Reg) (n : Rows) (s : State),
    ((s.reg y).toNat % 32 + n.val > 32 ∧ (s.reg x).toNat % 64 > 56 →
      execDrwWith .refuse x y n s = .refused .drwCorner) ∧
    (¬ ((s.reg y).toNat % 32 + n.val > 32 ∧ (s.reg x).toNat % 64 > 56) →
      execDrwWith .refuse x y n s = exec (.drw x y n) s)

/-! ### Keypad and timers -/

/-- R190, R191, R197: SKP and SKNP test the key whose index is V[x], and raise KeyIndex above 15 (decision D11,
log 12). -/
def Obligations.SkpAndSknpTestTheKey : Prop :=
  ∀ (x : Reg) (s : State),
    decodeWord (BitVec.ofNat 16 (0xE09E + 0x100 * x.val)) = .ok (.skp x) ∧
    decodeWord (BitVec.ofNat 16 (0xE0A1 + 0x100 * x.val)) = .ok (.sknp x) ∧
    (∀ k : Key, (s.reg x).toNat = k.val →
      exec (.skp x) s = .next { s with pc := if s.key k then s.pcPlus 4 else s.pcPlus 2 } ∧
      exec (.sknp x) s = .next { s with pc := if s.key k then s.pcPlus 2 else s.pcPlus 4 }) ∧
    ((s.reg x).toNat > 15 →
      exec (.skp x) s = raise .keyIndex (BitVec.ofNat 16 (0xE09E + 0x100 * x.val)) s ∧
      exec (.sknp x) s = raise .keyIndex (BitVec.ofNat 16 (0xE0A1 + 0x100 * x.val)) s)

/-- R192, R194: the delay timer is read and loaded whole. -/
def Obligations.DelayTimerLoads : Prop :=
  ∀ (x : Reg) (s : State),
    decodeWord (BitVec.ofNat 16 (0xF007 + 0x100 * x.val)) = .ok (.ldVxDt x) ∧
    decodeWord (BitVec.ofNat 16 (0xF015 + 0x100 * x.val)) = .ok (.ldDtVx x) ∧
    (∃ t, exec (.ldVxDt x) s = .next t ∧ t = { s with v := t.v, pc := s.pcPlus 2 } ∧
      ∀ r, t.reg r = if r = x then s.dt else s.reg r) ∧
    exec (.ldDtVx x) s = .next { s with dt := s.reg x, pc := s.pcPlus 2 }

/-- R195: ST is loaded, and the sound output rises or falls with it. The edges rest on SND = (ST ≠ 0), the spec's
decision D22 (log 21). -/
def Obligations.SoundTimerLoad : Prop :=
  ∀ (x : Reg) (s : State),
    decodeWord (BitVec.ofNat 16 (0xF018 + 0x100 * x.val)) = .ok (.ldStVx x) ∧
    ∃ t, exec (.ldStVx x) s = .next t ∧ t = { s with st := s.reg x, pc := s.pcPlus 2 } ∧
      (soundStarts s t = true ↔ s.st = 0#8 ∧ s.reg x ≠ 0#8) ∧
      (soundStops s t = true ↔ s.st ≠ 0#8 ∧ s.reg x = 0#8)

/-- R193: with no key down LD Vx,K changes nothing at all, PC included; otherwise V[x] becomes the index of a pressed
key, the one that is down if there is only one, and PC advances. Which key it is among several is free (log 7). -/
def Obligations.LdKeyWaitsOrLoadsAPressedKey : Prop :=
  ∀ (x : Reg) (s : State),
    decodeWord (BitVec.ofNat 16 (0xF00A + 0x100 * x.val)) = .ok (.ldVxK x) ∧
    ((∀ k, s.key k = false) → exec (.ldVxK x) s = .next s) ∧
    (∀ q, s.key q = true →
      ∃ t k, exec (.ldVxK x) s = .next t ∧ t = { s with v := t.v, pc := s.pcPlus 2 } ∧
        s.key k = true ∧ (t.reg x).toNat = k.val ∧ (∀ r, r ≠ x → t.reg r = s.reg r) ∧
        ((∀ j, s.key j = true → j = q) → k = q))

/-- R230: a tick lowers DT and ST by one each, clamped at 0, in one step, and touches nothing else; it is a step of the
TIMER agent while RUN = 1, whatever FAULT is. -/
def Obligations.TickLowersBothTimers : Prop :=
  ∀ s : State, s.nextTurn = .tick → s.run = true →
    ∃ t, step s = .next t ∧ t = { s with turns := s.turns.tail, dt := t.dt, st := t.st } ∧
      t.dt.toNat = s.dt.toNat - 1 ∧ t.st.toNat = s.st.toNat - 1

/-- R230, R231: k ticks lower each timer by k, clamped at 0, with no wrap and no reload, after a CPU fault too
(R227). -/
def Obligations.TicksCountDownToZero : Prop :=
  ∀ (k : Nat) (s : State) (rest : List Turn), s.run = true → s.turns = List.replicate k Turn.tick ++ rest →
    ∃ t, core.run k s = .next t ∧ t = { s with turns := rest, dt := t.dt, st := t.st } ∧
      t.dt.toNat = s.dt.toNat - k ∧ t.st.toNat = s.st.toNat - k

/-- R232: the sound starts only at an LD ST,Vx with V[x] ≠ 0, and stops only at a tick that takes ST from 1 to 0 or at
an LD ST,Vx with V[x] = 0 (decision D22, log 21). Init, which rebuilds the state, is left out. -/
def Obligations.SoundEdgesHaveTheirCauses : Prop :=
  ∀ s t : State, (∀ rom, s.nextTurn ≠ .host (.init rom)) → step s = .next t →
    (soundStarts s t = true →
      s.CpuReady ∧ ∃ x w, s.fetchWord = some w ∧ decodeWord w = .ok (.ldStVx x) ∧ s.reg x ≠ 0#8) ∧
    (soundStops s t = true →
      (s.nextTurn = .tick ∧ s.st = 1#8) ∨
      (s.CpuReady ∧ ∃ x w, s.fetchWord = some w ∧ decodeWord w = .ok (.ldStVx x) ∧ s.reg x = 0#8))

/-! ### Memory instructions -/

/-- R210: LD B,Vx stores v / 100, the whole quotient v / 10 and v % 10 at I, I + 1, I + 2, every other byte reads as
before and only PC changes besides; where I + 2 > 4095 it raises MemRange and stores nothing (decision D4, log 11).
Canonical memory is the invariant StepKeepsTheInvariant. -/
def Obligations.LdBStoresTheThreeBytes : Prop :=
  ∀ (x : Reg) (s : State), s.mem.wf →
    decodeWord (BitVec.ofNat 16 (0xF033 + 0x100 * x.val)) = .ok (.ldBVx x) ∧
    (s.i.toNat + 2 ≤ 4095 →
      ∃ t, exec (.ldBVx x) s = .next t ∧ t = { s with mem := t.mem, pc := s.pcPlus 2 } ∧
        (t.readByte s.i.toNat).toNat = (s.reg x).toNat / 100 ∧
        (t.readByte (s.i.toNat + 1)).toNat = (s.reg x).toNat / 10 ∧
        (t.readByte (s.i.toNat + 2)).toNat = (s.reg x).toNat % 10 ∧
        ∀ a, (a < s.i.toNat ∨ s.i.toNat + 2 < a) → t.readByte a = s.readByte a) ∧
    (s.i.toNat + 2 > 4095 → exec (.ldBVx x) s = raise .memRange (BitVec.ofNat 16 (0xF033 + 0x100 * x.val)) s)

/-- R211: LD Vx,[I] loads V[0] to V[x] from I upward and leaves the other registers, I and memory; where I + x > 4095 it
raises MemRange and loads nothing (decision D4, log 11). -/
def Obligations.LdVxILoadsTheRegisters : Prop :=
  ∀ (x : Reg) (s : State),
    decodeWord (BitVec.ofNat 16 (0xF065 + 0x100 * x.val)) = .ok (.ldVxI x) ∧
    (s.i.toNat + x.val ≤ 4095 →
      ∃ t, exec (.ldVxI x) s = .next t ∧ t = { s with v := t.v, pc := s.pcPlus 2 } ∧
        ∀ r, t.reg r = if r.val ≤ x.val then s.readByte (s.i.toNat + r.val) else s.reg r) ∧
    (s.i.toNat + x.val > 4095 → exec (.ldVxI x) s = raise .memRange (BitVec.ofNat 16 (0xF065 + 0x100 * x.val)) s)

/-- R74: a store is seen by the next fetch. After LD B,Vx at I the word fetched at I is made of the stored bytes. -/
def Obligations.StoresAreSeenByFetch : Prop :=
  ∀ (x : Reg) (s : State), s.mem.wf → s.i.toNat + 2 ≤ 4095 →
    ∃ t, exec (.ldBVx x) s = .next t ∧
      ({ t with pc := s.i } : State).fetchWord =
        some (BitVec.ofNat 16 ((s.reg x).toNat / 100 * 256 + (s.reg x).toNat / 10))

/-! ### Rules of the whole machine -/

/-- R24, R29 to R32, R34, R35, R38, R43: which instruction may write which part of the state. Only LD I,nnn and ADD I,Vx
write I; only CALL writes the stack; only CALL and RET write SP; only LD DT,Vx writes DT; only LD ST,Vx writes ST; only
LD B,Vx writes memory; only CLS and DRW write the display; only RND draws; and no instruction writes KEYS or RUN, or the
model's own `aborted` and `turns`. -/
def Obligations.InstructionsWriteOnlyTheirState : Prop :=
  ∀ (i : Instr) (s t : State), exec i s = .next t →
    (t.i ≠ s.i → (∃ nnn, i = .ldINnn nnn) ∨ ∃ x, i = .addIVx x) ∧
    (t.stack ≠ s.stack → ∃ nnn, i = .call nnn) ∧
    (t.sp ≠ s.sp → i = .ret ∨ ∃ nnn, i = .call nnn) ∧
    (t.dt ≠ s.dt → ∃ x, i = .ldDtVx x) ∧
    (t.st ≠ s.st → ∃ x, i = .ldStVx x) ∧
    (t.mem ≠ s.mem → ∃ x, i = .ldBVx x) ∧
    (t.disp ≠ s.disp → i = .cls ∨ ∃ x y n, i = .drw x y n) ∧
    (t.draws ≠ s.draws → ∃ x kk, i = .rndVxKk x kk) ∧
    t.keys = s.keys ∧ t.run = s.run ∧ t.aborted = s.aborted ∧ t.turns = s.turns

/-- R22: a register is changed only by an instruction of the table's writing rows, and a register that the instruction
neither reads nor writes may be anything: changing it before the instruction changes it after, and nothing else. -/
def Obligations.RegistersFollowTheAccessTable : Prop :=
  ∀ (i : Instr) (r : Reg) (s : State),
    (∀ t, exec i s = .next t → t.reg r ≠ s.reg r → MayWriteReg r i) ∧
    (¬ MayWriteReg r i → ¬ ReadsReg r i →
      ∀ b, exec i (s.setReg r b) = mapNext (fun t => t.setReg r b) (exec i s))

/-- R34, R38, R35, R127: an instruction that does not access memory for data gives the same result whatever memory
holds (so a skip does not look at the word it skips), and one that does not read keys gives the same whatever keys are
down. -/
def Obligations.InstructionsReadOnlyTheirInputs : Prop :=
  ∀ (i : Instr) (s : State),
    (accessesMemory i = false → ∀ m : Memory,
      exec i { s with mem := m } = mapNext (fun t => { t with mem := m }) (exec i s)) ∧
    (readsKeys i = false → ∀ k : BitVec 16,
      exec i { s with keys := k } = mapNext (fun t => { t with keys := k }) (exec i s))

/-- R7, R76: a tick and an instruction other than LD Vx,DT, LD DT,Vx and LD ST,Vx give the same state in either order
(atomic steps in any interleaving are decision D15, log 4). -/
def Obligations.TicksCommuteWithTimerlessInstructions : Prop :=
  ∀ (i : Instr) (s : State), usesTimers i = false → exec i (timerTick s) = mapNext timerTick (exec i s)

/-- R75: what each agent's step may write. A tick writes DT and ST only; the HOST writes KEYS, RUN (and `aborted`) only,
but for Init; the CPU writes neither KEYS nor RUN. The list of turns is the model's own (log 4). -/
def Obligations.AgentsWriteOnlyTheirState : Prop :=
  ∀ s t : State, step s = .next t →
    t.turns = s.turns.tail ∧
    (match s.nextTurn with
     | .cpu => t.keys = s.keys ∧ t.run = s.run ∧ t.aborted = s.aborted
     | .tick => t = { s with turns := t.turns, dt := t.dt, st := t.st }
     | .host (.init rom) => t = s.popTurn.initialised rom
     | .host _ => t = { s with turns := t.turns, keys := t.keys, run := t.run, aborted := t.aborted })

/-! ### Host moves and reset -/

/-- R240: KeyDown(k) sets KEY[k] and KeyUp(k) clears it, and nothing else changes; no other step of any agent changes a
key. -/
def Obligations.KeyMovesSetOneKey : Prop :=
  ∀ (s : State) (k : Key),
    (s.nextTurn = .host (.keyDown k) → ∃ t, step s = .next t ∧
      t = { s with turns := s.turns.tail, keys := t.keys } ∧ ∀ q, t.key q = if q = k then true else s.key q) ∧
    (s.nextTurn = .host (.keyUp k) → ∃ t, step s = .next t ∧
      t = { s with turns := s.turns.tail, keys := t.keys } ∧ ∀ q, t.key q = if q = k then false else s.key q) ∧
    (∀ t, step s = .next t → (∀ j, s.nextTurn ≠ .host (.keyDown j) ∧ s.nextTurn ≠ .host (.keyUp j)) → t.keys = s.keys)

/-- R40, R260, R238: Init with an image of at most 3584 bytes, moved while RUN = 0, leaves the image at 0x200 and every
other byte 0, execution about to start at 0x200, everything else of the table at 0, and KEY untouched (the values but
memory's and SP's are decision D12, log 2; `aborted`, `turns` and `draws` are the model's, logs 17, 4, 6). -/
def Obligations.InitLoadsTheImageAndResets : Prop :=
  ∀ (s : State) (rom : List Byte), s.nextTurn = .host (.init rom) → s.run = false → rom.length ≤ 3584 →
    ∃ t, step s = .next t ∧ t.mem.wf ∧
      (∀ k : Nat, k < rom.length → some (t.readByte (0x200 + k)) = rom[k]?) ∧
      (∀ a, (a < 0x200 ∨ 0x200 + rom.length ≤ a) → t.readByte a = 0x00#8) ∧
      t.pc = 0x0200#16 ∧ t.sp.val = 0 ∧ t.i = 0x0000#16 ∧ t.dt = 0#8 ∧ t.st = 0#8 ∧ t.snd = false ∧
      (∀ r, t.reg r = 0#8) ∧ (∀ n, t.slot n = 0x0000#16) ∧ (∀ row col, t.disp.cell row col = false) ∧
      t.fault = false ∧ t.fcode = 0#3 ∧ t.fpc = 0x0000#16 ∧ t.fiw = 0x0000#16 ∧ t.run = false ∧
      t.keys = s.keys ∧ t.aborted = false ∧ t.turns = s.turns.tail ∧ t.draws = s.draws

/-- R261, R245, R236: an image over 3584 bytes stops the machine with `initRomTooLong` (decision D21, log 16); Init or
Start while RUN = 1, Start after Abort and Abort while RUN = 0 are moves the model does not give (log 17). -/
def Obligations.ExcludedHostMovesStop : Prop :=
  ∀ (s : State) (rom : List Byte),
    (s.nextTurn = .host (.init rom) → s.run = false → rom.length > 3584 → step s = .fault .initRomTooLong) ∧
    (s.nextTurn = .host (.init rom) → s.run = true → step s = .refused .hostMoveExcluded) ∧
    (s.nextTurn = .host .start → (s.run = true ∨ s.aborted = true) → step s = .refused .hostMoveExcluded) ∧
    (s.nextTurn = .host .abort → s.run = false → step s = .refused .hostMoveExcluded)

/-- R238, R239: Start sets RUN, Abort clears it, and neither changes any other state of the spec (decision D24; the
field `aborted` is the model's, log 17). -/
def Obligations.StartAndAbortSetRun : Prop :=
  ∀ s : State,
    (s.nextTurn = .host .start → s.run = false → s.aborted = false →
      step s = .next { s with turns := s.turns.tail, run := true }) ∧
    (s.nextTurn = .host .abort → s.run = true →
      step s = .next { s with turns := s.turns.tail, run := false, aborted := true })

/-- R241, R242, R243: the read moves change nothing; ReadDisplay returns 32 rows of 64 cells, the cell of row and column
in its place, ReadTimers the timers and SND, ReadFault the record and the CPU state only after a fault (decision D14,
log 22). -/
def Obligations.ReadMovesReturnTheState : Prop :=
  ∀ s : State,
    ((s.nextTurn = .host .readDisplay ∨ s.nextTurn = .host .readTimers ∨ s.nextTurn = .host .readFault) →
      step s = .next { s with turns := s.turns.tail }) ∧
    (∀ (row : Fin 32) (col : Fin 64),
      ((readDisplay s)[row.val]?.bind fun cells => cells[col.val]?) = some (s.disp.cell row col)) ∧
    (readDisplay s).length = 32 ∧ (∀ cells ∈ readDisplay s, cells.length = 64) ∧
    readTimers s = (s.dt, s.st, decide (s.st ≠ 0#8)) ∧
    ((readFault s).fault = s.fault ∧ (readFault s).fcode = s.fcode ∧ (readFault s).fpc = s.fpc ∧
      (readFault s).fiw = s.fiw) ∧
    (s.fault = false → (readFault s).cpu = none) ∧
    (s.fault = true → (readFault s).cpu = some ⟨s.v, s.i, s.pc, s.sp, s.stack⟩)

/-- R40: the reset state holds the table's values (decisions D12, D13, D24, log 2). KEY, which Init does not set, and
the model's own fields are not mentioned. -/
def Obligations.ResetHoldsTheInitValues : Prop :=
  (∀ r, State.reset.reg r = 0#8) ∧ State.reset.i = 0x0000#16 ∧ State.reset.pc = 0x0200#16 ∧ State.reset.sp.val = 0 ∧
  (∀ n, State.reset.slot n = 0x0000#16) ∧ State.reset.dt = 0#8 ∧ State.reset.st = 0#8 ∧ State.reset.snd = false ∧
  (∀ a, State.reset.readByte a = 0#8) ∧ (∀ row col, State.reset.disp.cell row col = false) ∧
  State.reset.fault = false ∧ State.reset.fcode = 0#3 ∧ State.reset.fpc = 0x0000#16 ∧
  State.reset.fiw = 0x0000#16 ∧ State.reset.run = false

/-! ### Invariants -/

/-- Both invariants hold at reset. -/
def Obligations.InvariantsHoldAtReset : Prop := State.reset.Inv ∧ State.reset.PcBounded

/-- Every step of every agent keeps the machine's invariant: canonical memory, a fault record that is clear or as fault
entry leaves it (R42, R224), and no running after an abort (R239). -/
def Obligations.StepKeepsTheInvariant : Prop :=
  ∀ s t : State, s.Inv → step s = .next t → t.Inv

/-- R28: the bound on PC and on every return address is kept by every step, so PC arithmetic never wraps (decision D28,
log 24). -/
def Obligations.StepKeepsThePcBound : Prop :=
  ∀ s t : State, s.PcBounded → step s = .next t → t.PcBounded

/-! ### Executions and fairness -/

/-- R7: every interleaving is admitted. The first `n` steps of any execution are the run of `step` on the list of their
agents (that the list is a field of State is the model's form, log 4). -/
def Obligations.FiniteSchedulesGiveEveryInterleaving : Prop :=
  ∀ (acts : Nat → Turn) (states : Nat → State), IsExecution acts states → ∀ (n : Nat) (rest : List Turn),
    core.run n { states 0 with turns := (List.range n).map acts ++ rest } = .next { states n with turns := rest }

/-- R8, R230, R227: in a fair execution with RUN = 1 throughout, a timer that the CPU loads no more reaches 0 and stays
there, also after a CPU fault; without fairness this would be false (decision D17, log 23). -/
def Obligations.TimersRunDownInFairExecutions : Prop :=
  ∀ (acts : Nat → Turn) (states : Nat → State), IsExecution acts states → WeaklyFair acts states →
    (∀ n, (states n).run = true) →
    ((∀ n x, ¬ Executes (acts n) (states n) (.ldDtVx x)) → ∃ m, ∀ k, m ≤ k → (states k).dt = 0#8) ∧
    ((∀ n x, ¬ Executes (acts n) (states n) (.ldStVx x)) → ∃ m, ∀ k, m ≤ k → (states k).st = 0#8)

/-- R8, R193: in a fair execution with RUN = 1 throughout, a CPU that stands at an LD Vx,K while some key is down at every
step stays there for finitely many steps, then goes on to the next instruction with V[x] the index of a key that is down
(decisions D10 and D17, logs 7 and 23). -/
def Obligations.KeyWaitEndsInFairExecutions : Prop :=
  ∀ (acts : Nat → Turn) (states : Nat → State) (x : Reg) (w : Word), IsExecution acts states → WeaklyFair acts states →
    (∀ n, (states n).run = true ∧ ∃ k, (states n).key k = true) →
    (states 0).fault = false → (states 0).fetchWord = some w → decodeWord w = .ok (.ldVxK x) →
    ∃ m, (∀ j, j ≤ m → (states j).pc = (states 0).pc ∧ (states j).v = (states 0).v) ∧
      (states (m + 1)).pc = (states 0).pcPlus 2 ∧
      ∃ k, (states m).key k = true ∧ ((states (m + 1)).reg x).toNat = k.val
end

