-- ==== Sys2Proof/Laws/State.lean ====
section
/-! SUPPORT. One lemma per field per update of the state, so that no proof unfolds a record update. -/

namespace Sys2Proof.Machine

/-! ### setReg -/

@[simp] theorem State.setReg_v (s : State) (r : Reg) (b : Byte) : (s.setReg r b).v = s.v.set r.val b := rfl
@[simp] theorem State.setReg_i (s : State) (r : Reg) (b : Byte) : (s.setReg r b).i = s.i := rfl
@[simp] theorem State.setReg_pc (s : State) (r : Reg) (b : Byte) : (s.setReg r b).pc = s.pc := rfl
@[simp] theorem State.setReg_sp (s : State) (r : Reg) (b : Byte) : (s.setReg r b).sp = s.sp := rfl
@[simp] theorem State.setReg_stack (s : State) (r : Reg) (b : Byte) : (s.setReg r b).stack = s.stack := rfl
@[simp] theorem State.setReg_dt (s : State) (r : Reg) (b : Byte) : (s.setReg r b).dt = s.dt := rfl
@[simp] theorem State.setReg_st (s : State) (r : Reg) (b : Byte) : (s.setReg r b).st = s.st := rfl
@[simp] theorem State.setReg_mem (s : State) (r : Reg) (b : Byte) : (s.setReg r b).mem = s.mem := rfl
@[simp] theorem State.setReg_disp (s : State) (r : Reg) (b : Byte) : (s.setReg r b).disp = s.disp := rfl
@[simp] theorem State.setReg_fault (s : State) (r : Reg) (b : Byte) : (s.setReg r b).fault = s.fault := rfl
@[simp] theorem State.setReg_fcode (s : State) (r : Reg) (b : Byte) : (s.setReg r b).fcode = s.fcode := rfl
@[simp] theorem State.setReg_fpc (s : State) (r : Reg) (b : Byte) : (s.setReg r b).fpc = s.fpc := rfl
@[simp] theorem State.setReg_fiw (s : State) (r : Reg) (b : Byte) : (s.setReg r b).fiw = s.fiw := rfl
@[simp] theorem State.setReg_run (s : State) (r : Reg) (b : Byte) : (s.setReg r b).run = s.run := rfl
@[simp] theorem State.setReg_keys (s : State) (r : Reg) (b : Byte) : (s.setReg r b).keys = s.keys := rfl
@[simp] theorem State.setReg_aborted (s : State) (r : Reg) (b : Byte) : (s.setReg r b).aborted = s.aborted := rfl
@[simp] theorem State.setReg_turns (s : State) (r : Reg) (b : Byte) : (s.setReg r b).turns = s.turns := rfl
@[simp] theorem State.setReg_draws (s : State) (r : Reg) (b : Byte) : (s.setReg r b).draws = s.draws := rfl

/-! ### setPc -/

@[simp] theorem State.setPc_v (s : State) (w : Word) : (s.setPc w).v = s.v := rfl
@[simp] theorem State.setPc_i (s : State) (w : Word) : (s.setPc w).i = s.i := rfl
@[simp] theorem State.setPc_pc (s : State) (w : Word) : (s.setPc w).pc = w := rfl
@[simp] theorem State.setPc_sp (s : State) (w : Word) : (s.setPc w).sp = s.sp := rfl
@[simp] theorem State.setPc_stack (s : State) (w : Word) : (s.setPc w).stack = s.stack := rfl
@[simp] theorem State.setPc_dt (s : State) (w : Word) : (s.setPc w).dt = s.dt := rfl
@[simp] theorem State.setPc_st (s : State) (w : Word) : (s.setPc w).st = s.st := rfl
@[simp] theorem State.setPc_mem (s : State) (w : Word) : (s.setPc w).mem = s.mem := rfl
@[simp] theorem State.setPc_disp (s : State) (w : Word) : (s.setPc w).disp = s.disp := rfl
@[simp] theorem State.setPc_fault (s : State) (w : Word) : (s.setPc w).fault = s.fault := rfl
@[simp] theorem State.setPc_fcode (s : State) (w : Word) : (s.setPc w).fcode = s.fcode := rfl
@[simp] theorem State.setPc_fpc (s : State) (w : Word) : (s.setPc w).fpc = s.fpc := rfl
@[simp] theorem State.setPc_fiw (s : State) (w : Word) : (s.setPc w).fiw = s.fiw := rfl
@[simp] theorem State.setPc_run (s : State) (w : Word) : (s.setPc w).run = s.run := rfl
@[simp] theorem State.setPc_keys (s : State) (w : Word) : (s.setPc w).keys = s.keys := rfl
@[simp] theorem State.setPc_aborted (s : State) (w : Word) : (s.setPc w).aborted = s.aborted := rfl
@[simp] theorem State.setPc_turns (s : State) (w : Word) : (s.setPc w).turns = s.turns := rfl
@[simp] theorem State.setPc_draws (s : State) (w : Word) : (s.setPc w).draws = s.draws := rfl

/-! ### raised -/

@[simp] theorem State.raised_v (s : State) (k : FaultKind) (iw : Word) : (s.raised k iw).v = s.v := rfl
@[simp] theorem State.raised_i (s : State) (k : FaultKind) (iw : Word) : (s.raised k iw).i = s.i := rfl
@[simp] theorem State.raised_pc (s : State) (k : FaultKind) (iw : Word) : (s.raised k iw).pc = s.pc := rfl
@[simp] theorem State.raised_sp (s : State) (k : FaultKind) (iw : Word) : (s.raised k iw).sp = s.sp := rfl
@[simp] theorem State.raised_stack (s : State) (k : FaultKind) (iw : Word) : (s.raised k iw).stack = s.stack := rfl
@[simp] theorem State.raised_dt (s : State) (k : FaultKind) (iw : Word) : (s.raised k iw).dt = s.dt := rfl
@[simp] theorem State.raised_st (s : State) (k : FaultKind) (iw : Word) : (s.raised k iw).st = s.st := rfl
@[simp] theorem State.raised_mem (s : State) (k : FaultKind) (iw : Word) : (s.raised k iw).mem = s.mem := rfl
@[simp] theorem State.raised_disp (s : State) (k : FaultKind) (iw : Word) : (s.raised k iw).disp = s.disp := rfl
@[simp] theorem State.raised_fault (s : State) (k : FaultKind) (iw : Word) : (s.raised k iw).fault = true := rfl
@[simp] theorem State.raised_fcode (s : State) (k : FaultKind) (iw : Word) : (s.raised k iw).fcode = k.code := rfl
@[simp] theorem State.raised_fpc (s : State) (k : FaultKind) (iw : Word) : (s.raised k iw).fpc = s.pc := rfl
@[simp] theorem State.raised_fiw (s : State) (k : FaultKind) (iw : Word) : (s.raised k iw).fiw = iw := rfl
@[simp] theorem State.raised_run (s : State) (k : FaultKind) (iw : Word) : (s.raised k iw).run = s.run := rfl
@[simp] theorem State.raised_keys (s : State) (k : FaultKind) (iw : Word) : (s.raised k iw).keys = s.keys := rfl
@[simp] theorem State.raised_aborted (s : State) (k : FaultKind) (iw : Word) : (s.raised k iw).aborted = s.aborted := rfl
@[simp] theorem State.raised_turns (s : State) (k : FaultKind) (iw : Word) : (s.raised k iw).turns = s.turns := rfl
@[simp] theorem State.raised_draws (s : State) (k : FaultKind) (iw : Word) : (s.raised k iw).draws = s.draws := rfl

/-! ### popTurn -/

@[simp] theorem State.popTurn_v (s : State) : s.popTurn.v = s.v := rfl
@[simp] theorem State.popTurn_i (s : State) : s.popTurn.i = s.i := rfl
@[simp] theorem State.popTurn_pc (s : State) : s.popTurn.pc = s.pc := rfl
@[simp] theorem State.popTurn_sp (s : State) : s.popTurn.sp = s.sp := rfl
@[simp] theorem State.popTurn_stack (s : State) : s.popTurn.stack = s.stack := rfl
@[simp] theorem State.popTurn_dt (s : State) : s.popTurn.dt = s.dt := rfl
@[simp] theorem State.popTurn_st (s : State) : s.popTurn.st = s.st := rfl
@[simp] theorem State.popTurn_mem (s : State) : s.popTurn.mem = s.mem := rfl
@[simp] theorem State.popTurn_disp (s : State) : s.popTurn.disp = s.disp := rfl
@[simp] theorem State.popTurn_fault (s : State) : s.popTurn.fault = s.fault := rfl
@[simp] theorem State.popTurn_fcode (s : State) : s.popTurn.fcode = s.fcode := rfl
@[simp] theorem State.popTurn_fpc (s : State) : s.popTurn.fpc = s.fpc := rfl
@[simp] theorem State.popTurn_fiw (s : State) : s.popTurn.fiw = s.fiw := rfl
@[simp] theorem State.popTurn_run (s : State) : s.popTurn.run = s.run := rfl
@[simp] theorem State.popTurn_keys (s : State) : s.popTurn.keys = s.keys := rfl
@[simp] theorem State.popTurn_aborted (s : State) : s.popTurn.aborted = s.aborted := rfl
@[simp] theorem State.popTurn_turns (s : State) : s.popTurn.turns = s.turns.tail := rfl
@[simp] theorem State.popTurn_draws (s : State) : s.popTurn.draws = s.draws := rfl

/-! ### setKey -/

@[simp] theorem State.setKey_v (s : State) (k : Key) (b : Bool) : (s.setKey k b).v = s.v := rfl
@[simp] theorem State.setKey_i (s : State) (k : Key) (b : Bool) : (s.setKey k b).i = s.i := rfl
@[simp] theorem State.setKey_pc (s : State) (k : Key) (b : Bool) : (s.setKey k b).pc = s.pc := rfl
@[simp] theorem State.setKey_sp (s : State) (k : Key) (b : Bool) : (s.setKey k b).sp = s.sp := rfl
@[simp] theorem State.setKey_stack (s : State) (k : Key) (b : Bool) : (s.setKey k b).stack = s.stack := rfl
@[simp] theorem State.setKey_dt (s : State) (k : Key) (b : Bool) : (s.setKey k b).dt = s.dt := rfl
@[simp] theorem State.setKey_st (s : State) (k : Key) (b : Bool) : (s.setKey k b).st = s.st := rfl
@[simp] theorem State.setKey_mem (s : State) (k : Key) (b : Bool) : (s.setKey k b).mem = s.mem := rfl
@[simp] theorem State.setKey_disp (s : State) (k : Key) (b : Bool) : (s.setKey k b).disp = s.disp := rfl
@[simp] theorem State.setKey_fault (s : State) (k : Key) (b : Bool) : (s.setKey k b).fault = s.fault := rfl
@[simp] theorem State.setKey_fcode (s : State) (k : Key) (b : Bool) : (s.setKey k b).fcode = s.fcode := rfl
@[simp] theorem State.setKey_fpc (s : State) (k : Key) (b : Bool) : (s.setKey k b).fpc = s.fpc := rfl
@[simp] theorem State.setKey_fiw (s : State) (k : Key) (b : Bool) : (s.setKey k b).fiw = s.fiw := rfl
@[simp] theorem State.setKey_run (s : State) (k : Key) (b : Bool) : (s.setKey k b).run = s.run := rfl
@[simp] theorem State.setKey_keys (s : State) (k : Key) (b : Bool) : (s.setKey k b).keys = if b then s.keys ||| (1#16 <<< k.val) else s.keys &&& ~~~(1#16 <<< k.val) := rfl
@[simp] theorem State.setKey_aborted (s : State) (k : Key) (b : Bool) : (s.setKey k b).aborted = s.aborted := rfl
@[simp] theorem State.setKey_turns (s : State) (k : Key) (b : Bool) : (s.setKey k b).turns = s.turns := rfl
@[simp] theorem State.setKey_draws (s : State) (k : Key) (b : Bool) : (s.setKey k b).draws = s.draws := rfl

/-! ### advance and skipIf are setPc -/

@[simp] theorem State.advance_eq (s : State) : s.advance = s.setPc s.nextPC := rfl
@[simp] theorem State.skipIf_eq (s : State) (c : Bool) :
    s.skipIf c = s.setPc (if c then s.skipPC else s.nextPC) := rfl

/-! ### Registers -/

@[simp] theorem State.reg_setReg (s : State) (r q : Reg) (b : Byte) :
    (s.setReg r b).reg q = if q = r then b else s.reg q := by
  simp only [State.reg, State.setReg, Vector.getElem_set]
  by_cases h : q = r
  · simp [h]
  · have h' : ¬ r.val = q.val := fun e => h (Fin.ext e.symm)
    simp [h, h']

/-- Writes to different registers commute. -/
theorem State.setReg_comm (s : State) (q r : Reg) (a b : Byte) (h : q ≠ r) :
    (s.setReg q a).setReg r b = (s.setReg r b).setReg q a := by
  simp only [State.setReg]
  congr 1
  exact Vector.set_comm _ _ fun e => h (Fin.ext e)

/-- A register is a function of the register file alone. -/
theorem State.reg_congr (s t : State) (h : t.v = s.v) (r : Reg) : t.reg r = s.reg r := by simp [State.reg, h]

@[simp] theorem State.reg_setPc (s : State) (w : Word) (r : Reg) : (s.setPc w).reg r = s.reg r := rfl
@[simp] theorem State.reg_popTurn (s : State) (r : Reg) : s.popTurn.reg r = s.reg r := rfl
@[simp] theorem State.reg_raised (s : State) (k : FaultKind) (iw : Word) (r : Reg) : (s.raised k iw).reg r = s.reg r :=
  rfl

/-- Two register files are equal when all sixteen registers are. -/
theorem State.v_ext (s t : State) (h : ∀ r, t.reg r = s.reg r) : t.v = s.v := by
  apply Vector.ext
  intro k hk
  exact h ⟨k, hk⟩

/-! ### Program counter -/

@[simp] theorem State.nextPC_setReg (s : State) (r : Reg) (b : Byte) : (s.setReg r b).nextPC = s.nextPC := rfl
@[simp] theorem State.skipPC_setReg (s : State) (r : Reg) (b : Byte) : (s.setReg r b).skipPC = s.skipPC := rfl

/-- R28: NextPC is PC + 2 modulo 65536. -/
theorem State.nextPC_toNat (s : State) : s.nextPC.toNat = (s.pc.toNat + 2) % 65536 := by
  simp [State.nextPC, BitVec.toNat_add]

/-- R28: SkipPC is PC + 4 modulo 65536. -/
theorem State.skipPC_toNat (s : State) : s.skipPC.toNat = (s.pc.toNat + 4) % 65536 := by
  simp [State.skipPC, BitVec.toNat_add]

/-- Adding to a word modulo 65536. -/
theorem ofNat_toNat_add (w : Word) (k : Nat) : BitVec.ofNat 16 (w.toNat + k) = w + BitVec.ofNat 16 k := by
  apply BitVec.eq_of_toNat_eq
  simp [BitVec.toNat_add]

/-- The rules' (PC + 2) mod 65536 is NextPC. -/
theorem State.pcPlus_two (s : State) : s.pcPlus 2 = s.nextPC := ofNat_toNat_add _ _

/-- The rules' (PC + 4) mod 65536 is SkipPC. -/
theorem State.pcPlus_four (s : State) : s.pcPlus 4 = s.skipPC := ofNat_toNat_add _ _

theorem zext16_eq (nnn : Imm12) : zext16 nnn = BitVec.ofNat 16 nnn.toNat := by
  apply BitVec.eq_of_toNat_eq
  simp [zext16]

theorem zext16_toNat (nnn : Imm12) : (zext16 nnn).toNat = nnn.toNat := by
  have := nnn.isLt
  simp only [zext16, BitVec.toNat_setWidth]
  omega

/-! ### Turns and keys -/

@[simp] theorem State.nextTurn_nil (s : State) (h : s.turns = []) : s.nextTurn = .cpu := by
  simp [State.nextTurn, h]

@[simp] theorem State.nextTurn_cons (s : State) (t : Turn) (ts : List Turn) (h : s.turns = t :: ts) :
    s.nextTurn = t := by simp [State.nextTurn, h]

/-- R240: a key move sets the named key and no other. -/
theorem State.key_setKey (s : State) (k q : Key) (b : Bool) :
    (s.setKey k b).key q = if q = k then b else s.key q := by
  have hq := q.isLt
  have hk := k.isLt
  by_cases h : q = k
  · subst h
    cases b <;> simp [State.key, State.setKey, hq]
  · have h' : q.val ≠ k.val := fun e => h (Fin.ext e)
    have d : ¬ q.val < k.val → q.val - k.val ≠ 0 := fun hlt => by omega
    by_cases hlt : q.val < k.val
    · cases b <;> simp [State.key, State.setKey, hq, h, hlt]
    · cases b <;> simp [State.key, State.setKey, hq, h, hlt, d hlt]

end Sys2Proof.Machine
end

