-- ==== Sys2Proof/Laws/Memory.lean ====
section
/-! SUPPORT. Memory: reading after writing, the canonical form is kept, and what MemRead and MemWrite can do. -/

namespace Sys2Proof.Machine

@[simp] theorem Memory.read_nil (a : Nat) : Memory.read [] a = Memory.unlisted := rfl

/-- An address below every listed one is not listed. -/
theorem Memory.read_below (m : Memory) (a : Nat) (h : ∀ p ∈ m, a < p.1) : m.read a = Memory.unlisted := by
  induction m with
  | nil => rfl
  | cons c rest ih =>
    obtain ⟨b, w⟩ := c
    have hb : a < b := h (b, w) (by simp)
    simp only [Memory.read, Nat.ne_of_lt hb, if_false]
    exact ih fun p hp => h p (by simp [hp])

/-- Reading after a write, in canonical memory (R60: a cell holds the last value written to it). -/
theorem Memory.read_write (m : Memory) (h : m.wf) (a : Nat) (v : Byte) (b : Nat) :
    (m.write a v).read b = if b = a then v else m.read b := by
  induction m with
  | nil =>
    by_cases hv : v = Memory.unlisted <;> simp [Memory.write, Memory.read, hv]
  | cons c rest ih =>
    obtain ⟨d, w⟩ := c
    obtain ⟨hp, hm⟩ := h
    rw [List.pairwise_cons] at hp
    have ih := ih ⟨hp.2, fun p hp' => hm p (by simp [hp'])⟩
    have low : ∀ x, x ≤ d → Memory.read rest x = Memory.unlisted := fun x hx =>
      Memory.read_below rest x fun p hp' => Nat.lt_of_le_of_lt hx (hp.1 p hp')
    simp only [Memory.write]
    split
    · rename_i had
      split
      · rename_i hv
        subst hv
        by_cases hb : b = a
        · subst hb
          simp [Memory.read, Nat.ne_of_lt had, low b (Nat.le_of_lt had)]
        · simp [hb]
      · simp [Memory.read]
    · split
      · rename_i _ had
        subst had
        split
        · rename_i hv
          subst hv
          by_cases hb : b = a
          · subst hb
            simp [low b (Nat.le_refl b)]
          · simp [Memory.read, hb]
        · by_cases hb : b = a <;> simp [Memory.read, hb]
      · rename_i h1 h2
        simp only [Memory.read, ih]
        by_cases hb : b = d
        · subst hb
          have : ¬ b = a := fun e => h2 e.symm
          simp [this]
        · simp [hb]

/-- Every listed address of the written memory was listed or is the address written. -/
theorem Memory.mem_write (m : Memory) (a : Nat) (v : Byte) (p : Host.Cell) (hp : p ∈ m.write a v) :
    p ∈ m ∨ (p = (a, v) ∧ v ≠ Memory.unlisted) := by
  induction m with
  | nil =>
    by_cases hv : v = Memory.unlisted
    · simp [Memory.write, hv] at hp
    · simp [Memory.write, hv] at hp
      exact .inr ⟨hp, hv⟩
  | cons c rest ih =>
    obtain ⟨d, w⟩ := c
    simp only [Memory.write] at hp
    split at hp
    · split at hp
      · exact .inl hp
      · rename_i hv
        rcases List.mem_cons.1 hp with e | e
        · exact .inr ⟨e, hv⟩
        · exact .inl e
    · split at hp
      · split at hp
        · exact .inl (List.mem_cons_of_mem _ hp)
        · rename_i hv
          rcases List.mem_cons.1 hp with e | e
          · exact .inr ⟨e, hv⟩
          · exact .inl (List.mem_cons_of_mem _ e)
      · rcases List.mem_cons.1 hp with e | e
        · exact .inl (by simp [e])
        · rcases ih e with e | e
          · exact .inl (List.mem_cons_of_mem _ e)
          · exact .inr e

/-- A write inside the address space keeps the canonical form. -/
theorem Memory.write_wf (m : Memory) (h : m.wf) (a : Nat) (v : Byte) (ha : a < Config.memSize) :
    (m.write a v).wf := by
  refine ⟨?_, ?_⟩
  · induction m with
    | nil => by_cases hv : v = Memory.unlisted <;> simp [Memory.write, hv]
    | cons c rest ih =>
      obtain ⟨d, w⟩ := c
      obtain ⟨hp, hm⟩ := h
      have hp' := hp
      rw [List.pairwise_cons] at hp
      simp only [Memory.write]
      split
      · rename_i had
        split
        · exact hp'
        · rw [List.pairwise_cons]
          refine ⟨fun q hq => ?_, hp'⟩
          rcases List.mem_cons.1 hq with e | e
          · simp [e, had]
          · exact Nat.lt_trans had (hp.1 q e)
      · split
        · rename_i _ had
          subst had
          split
          · exact hp.2
          · rw [List.pairwise_cons]
            exact ⟨hp.1, hp.2⟩
        · rename_i h1 h2
          rw [List.pairwise_cons]
          refine ⟨fun q hq => ?_, ih ⟨hp.2, fun p hp' => hm p (by simp [hp'])⟩⟩
          rcases Memory.mem_write rest a v q hq with e | ⟨e, _⟩
          · exact hp.1 q e
          · subst e
            show d < a
            omega
  · intro p hp
    rcases Memory.mem_write m a v p hp with e | ⟨e, hv⟩
    · exact h.2 p e
    · subst e
      exact ⟨ha, hv⟩

/-- Writing several bytes inside the address space keeps the canonical form. -/
theorem Memory.writeBytes_wf (m : Memory) (h : m.wf) (a : Nat) (vs : List Byte)
    (ha : a + vs.length ≤ Config.memSize) : (m.writeBytes a vs).wf := by
  induction vs generalizing a with
  | nil => exact h
  | cons v vs ih =>
    simp only [List.length_cons] at ha
    exact Memory.write_wf _ (ih (a + 1) (by omega)) a v (by omega)

/-- Reading after writing several bytes: byte k of the list at a + k, every other address as before (R67). -/
theorem Memory.read_writeBytes (m : Memory) (h : m.wf) (a : Nat) (vs : List Byte)
    (ha : a + vs.length ≤ Config.memSize) (b : Nat) :
    (m.writeBytes a vs).read b = if a ≤ b ∧ b < a + vs.length then vs.getD (b - a) Memory.unlisted else m.read b := by
  induction vs generalizing a with
  | nil =>
    have : ¬ (a ≤ b ∧ b < a + ([] : List Byte).length) := by simp
    simp only [Memory.writeBytes, this, if_false]
  | cons v vs ih =>
    simp only [List.length_cons] at ha ⊢
    rw [Memory.writeBytes, Memory.read_write _ (Memory.writeBytes_wf m h (a + 1) vs (by omega)), ih (a + 1) (by omega)]
    by_cases h1 : b = a
    · subst h1
      simp
    · by_cases h2 : a ≤ b ∧ b < a + (vs.length + 1)
      · have h3 : a + 1 ≤ b ∧ b < a + 1 + vs.length := by omega
        have h4 : b - a = (b - (a + 1)) + 1 := by omega
        simp [h1, h2, h3, h4]
      · have h3 : ¬ (a + 1 ≤ b ∧ b < a + 1 + vs.length) := by omega
        rw [if_neg h1, if_neg h2, if_neg h3]

theorem Memory.nil_wf : Memory.wf [] := by simp [Memory.wf]

/-- The memory at reset is canonical. -/
theorem reset_mem_wf : State.reset.mem.wf := Memory.nil_wf

/-- The image of a ROM that fits is canonical. -/
theorem romImage_wf (rom : List Byte) (h : rom.length ≤ Config.romMax) : (romImage rom).wf := by
  refine Memory.writeBytes_wf [] Memory.nil_wf Config.romBase rom ?_
  simp only [Config.romMax, Config.romBase, Config.memSize] at *
  omega

/-- R66: what MemRead can do. -/
theorem memRead_eq_some (s : State) (addr n : Nat) (bytes : List Byte) :
    memRead s addr n = some bytes ↔
      (n = 0 ∨ addr + n ≤ Config.memSize) ∧ bytes = (List.range n).map fun k => s.readByte (addr + k) := by
  unfold memRead
  split
  · rename_i h
    simp only [reduceCtorEq, false_iff, not_and]
    intro h'
    omega
  · rename_i h
    simp only [Option.some.injEq]
    constructor
    · intro e
      exact ⟨by omega, e.symm⟩
    · exact fun e => e.2.symm

theorem memRead_eq_none (s : State) (addr n : Nat) :
    memRead s addr n = none ↔ 0 < n ∧ Config.memSize < addr + n := by
  unfold memRead
  split
  · rename_i h
    simp only [true_iff]
    omega
  · rename_i h
    simp only [reduceCtorEq, false_iff]
    omega

/-- The bytes MemRead gives are as many as were asked for. -/
theorem memRead_length (s : State) (addr n : Nat) (bytes : List Byte) (h : memRead s addr n = some bytes) :
    bytes.length = n := by
  rw [((memRead_eq_some s addr n bytes).1 h).2]
  simp

/-- R67: what MemWrite can do: nothing but memory changes, and the access lies inside the address space. -/
theorem memWrite_eq_some (s s' : State) (addr : Nat) (bytes : List Byte) :
    memWrite s addr bytes = some s' ↔
      addr + bytes.length ≤ Config.memSize ∧ s' = { s with mem := s.mem.writeBytes addr bytes } := by
  unfold memWrite
  split
  · rename_i h
    simp only [reduceCtorEq, false_iff, not_and]
    intro h'
    omega
  · rename_i h
    simp only [Option.some.injEq]
    constructor
    · intro e
      exact ⟨by omega, e.symm⟩
    · exact fun e => e.2.symm

theorem memWrite_eq_none (s : State) (addr : Nat) (bytes : List Byte) :
    memWrite s addr bytes = none ↔ Config.memSize < addr + bytes.length := by
  unfold memWrite
  split
  · rename_i h
    simp only [true_iff]
    omega
  · rename_i h
    simp only [reduceCtorEq, false_iff]
    omega

end Sys2Proof.Machine
end

