-- ==== Sys2Proof/Laws/Ops.lean ====
section
/-! SUPPORT. What each shared operation can do, said once: the call stack, fault entry, the keys, the timers, the
register loads of LD Vx,[I], and the fetch. -/

namespace Sys2Proof.Machine

/-! ### Call stack -/

theorem push_eq_some (s s' : State) (w : Word) :
    s.push w = some s' ↔
      ∃ h : s.sp.val < 16,
        s' = { s with sp := ⟨s.sp.val + 1, by omega⟩, stack := s.stack.set s.sp.val w } := by
  unfold State.push
  split
  · rename_i h
    simp only [Option.some.injEq]
    exact ⟨fun e => ⟨h, e.symm⟩, fun ⟨_, e⟩ => e.symm⟩
  · rename_i h
    simp only [reduceCtorEq, false_iff, not_exists]
    exact fun h' => absurd h' h

theorem push_eq_none (s : State) (w : Word) : s.push w = none ↔ s.sp.val = 16 := by
  have := s.sp.isLt
  unfold State.push
  split
  · simp only [reduceCtorEq, false_iff]
    omega
  · simp only [true_iff]
    omega

theorem pop_eq_none (s : State) : s.pop = none ↔ s.sp.val = 0 := by
  unfold State.pop
  split <;> simp_all

theorem pop_eq_some (s s' : State) (w : Word) :
    s.pop = some (w, s') ↔
      ∃ n : Fin 16, s.sp.val = n.val + 1 ∧ w = s.slot n ∧ s' = { s with sp := ⟨n.val, by omega⟩ } := by
  have hlt := s.sp.isLt
  unfold State.pop
  split
  · rename_i h
    simp only [reduceCtorEq, false_iff, not_exists]
    rintro n ⟨e, _⟩
    omega
  · rename_i h
    simp only [Option.some.injEq, Prod.mk.injEq]
    constructor
    · rintro ⟨rfl, rfl⟩
      exact ⟨⟨s.sp.val - 1, by omega⟩, by simp only; omega, rfl, rfl⟩
    · rintro ⟨n, e, rfl, rfl⟩
      have hn : (⟨s.sp.val - 1, by omega⟩ : Fin 16) = n := Fin.ext (by simp only; omega)
      have hn' : (⟨s.sp.val - 1, by omega⟩ : Fin 17) = ⟨n.val, by omega⟩ := Fin.ext (by simp only; omega)
      exact ⟨by rw [hn], by rw [hn']⟩

/-- Reading a slot after a push (R123). -/
theorem slot_set (s : State) (k : Nat) (hk : k < 16) (w : Word) (m : Fin 16) :
    ({ s with stack := s.stack.set k w } : State).slot m = if m.val = k then w else s.slot m := by
  simp only [State.slot, Vector.getElem_set]
  by_cases h : m.val = k
  · simp [h]
  · have : ¬ k = m.val := fun e => h e.symm
    simp [h, this]

/-! ### Fault entry -/

@[simp] theorem raise_eq_next (k : FaultKind) (iw : Word) (s t : State) :
    raise k iw s = .next t ↔ t = s.raised k iw := by
  simp only [raise, Host.Outcome.next.injEq]
  exact eq_comm

/-- The five codes are 1..5 (R220). -/
theorem code_range (k : FaultKind) : 1 ≤ k.code.toNat ∧ k.code.toNat ≤ 5 := by cases k <;> decide

/-! ### Keys -/

theorem mem_pressedKeys (keys : BitVec 16) (k : Key) : k ∈ pressedKeys keys ↔ keys.getLsbD k.val = true := by
  simp [pressedKeys]

/-- Some key is down in a vector that is not zero. -/
theorem exists_pressed (keys : BitVec 16) (h : keys ≠ 0#16) : ∃ k : Key, keys.getLsbD k.val = true := by
  apply Classical.byContradiction
  intro hn
  apply h
  apply BitVec.eq_of_getLsbD_eq
  intro k hk
  have := fun e => hn ⟨⟨k, hk⟩, e⟩
  simpa using this

/-- KEY_SELECT answers a pressed key (R196). -/
theorem keySelect_pressed (keys : BitVec 16) (h : keys ≠ 0#16) : keys.getLsbD (keySelect keys).val = true := by
  obtain ⟨k, hk⟩ := exists_pressed keys h
  have hmem := (mem_pressedKeys keys k).2 hk
  have hpos : 0 < (pressedKeys keys).length := List.length_pos_of_mem hmem
  have hlt := Nat.mod_lt (Config.keyChoice keys) hpos
  rw [← mem_pressedKeys, keySelect, List.getD_eq_getElem _ _ hlt]
  exact List.getElem_mem hlt

/-! ### Timers -/

theorem timerDown_toNat (t : Byte) : (timerDown t).toNat = t.toNat - 1 := by
  unfold timerDown
  split
  · rename_i h
    simp [h]
  · rename_i h
    have h0 : t.toNat ≠ 0 := fun e => h (BitVec.eq_of_toNat_eq (by simpa using e))
    have := t.isLt
    rw [BitVec.toNat_sub]
    simp only [BitVec.toNat_ofNat]
    omega

/-! ### Loading registers -/

/-- R211: the registers from `loc` on take the bytes in order, every other register is kept. -/
theorem load_getElem (v : Regs) (loc : Nat) (bs : List Byte) (k : Nat) (hk : k < 16) :
    (Regs.load v loc bs)[k] = if loc ≤ k ∧ k < loc + bs.length then bs.getD (k - loc) 0#8 else v[k] := by
  induction bs generalizing v loc with
  | nil =>
    have : ¬ (loc ≤ k ∧ k < loc + ([] : List Byte).length) := by simp
    rw [if_neg this]
    rfl
  | cons b bs ih =>
    rw [Regs.load, ih]
    simp only [List.length_cons]
    by_cases h1 : k = loc
    · subst h1
      simp
    · by_cases h2 : loc + 1 ≤ k ∧ k < loc + 1 + bs.length
      · have h3 : loc ≤ k ∧ k < loc + (bs.length + 1) := by omega
        have h4 : k - loc = (k - (loc + 1)) + 1 := by omega
        rw [if_pos h2, if_pos h3, h4]
        simp
      · have h3 : ¬ (loc ≤ k ∧ k < loc + (bs.length + 1)) := by omega
        rw [if_neg h2, if_neg h3, Vector.getElem_setIfInBounds]
        have : ¬ loc = k := fun e => h1 e.symm
        simp [this]

/-! ### Fetch -/

/-- R63, R69: what the fetch can do. -/
theorem fetchWord_eq_some (s : State) (w : Word) :
    s.fetchWord = some w ↔
      s.pc.toNat ≤ 4094 ∧ w = wordOfBytes (s.readByte s.pc.toNat) (s.readByte (s.pc.toNat + 1)) := by
  unfold State.fetchWord
  by_cases h : s.pc.toNat + 1 ≥ Config.memSize
  · rw [if_pos h]
    simp only [Config.memSize] at h
    simp only [reduceCtorEq, false_iff, not_and]
    intro h'
    omega
  · rw [if_neg h]
    simp only [Config.memSize] at h
    simp only [Option.some.injEq]
    exact ⟨fun e => ⟨by omega, e.symm⟩, fun e => e.2.symm⟩

theorem fetchWord_eq_none (s : State) : s.fetchWord = none ↔ 4095 ≤ s.pc.toNat := by
  unfold State.fetchWord
  by_cases h : s.pc.toNat + 1 ≥ Config.memSize
  · rw [if_pos h]
    simp only [Config.memSize] at h
    simp only [true_iff]
    omega
  · rw [if_neg h]
    simp only [Config.memSize] at h
    simp only [reduceCtorEq, false_iff]
    omega

end Sys2Proof.Machine
end

