-- ==== Sys2Proof/Laws/Display.lean ====
section
/-! SUPPORT. The display: toggling cells, and what drawing a sprite does to one cell (42_display.md R172). -/

namespace Sys2Proof.Machine

/-- Two displays with the same cells are equal. -/
theorem Display.ext_cells (d e : Display) (h : ∀ row col, d.cell row col = e.cell row col) : d = e := by
  apply Vector.ext
  intro r hr
  apply Vector.ext
  intro c hc
  exact h ⟨r, hr⟩ ⟨c, hc⟩

@[simp] theorem Display.cell_clear (row : Fin 32) (col : Fin 64) : Display.clear.cell row col = false := by
  simp [Display.clear, Display.cell]

/-- A toggle inverts its cell and leaves the others. -/
theorem Display.cell_toggle (d : Display) (r row : Fin 32) (c col : Fin 64) :
    (d.toggle r c).cell row col = if row = r ∧ col = c then !d.cell row col else d.cell row col := by
  simp only [Display.cell, Display.toggle, Vector.getElem_set, Fin.ext_iff]
  by_cases hr : r.val = row.val
  · by_cases hc : c.val = col.val
    · simp [hr, hc]
    · have : ¬ col.val = c.val := fun e => hc e.symm
      simp [hr, hc, this]
  · have : ¬ row.val = r.val := fun e => hr e.symm
    simp [hr, this]

/-! ### Drawing is toggling a list of distinct cells -/

/-- Toggle the cells of a list in turn, noting a collision at each that is 1. -/
def toggleAll : List (Fin 32 × Fin 64) → Display × Bool → Display × Bool
  | [], acc => acc
  | p :: ps, acc => toggleAll ps (acc.1.toggle p.1 p.2, acc.2 || acc.1.cell p.1 p.2)

/-- The cells of the pixels `cs` of one sprite byte that are 1. -/
def pixelCells (b : Byte) (row x0 : Nat) (cs : List Nat) : List (Fin 32 × Fin 64) :=
  cs.filterMap fun c => if b.getLsbD (7 - c) then spriteCell row (x0 + c) else none

/-- The cells of a sprite's pixels that are 1. -/
def spriteCells (x0 : Nat) : Nat → List Byte → List (Fin 32 × Fin 64)
  | _, [] => []
  | row, b :: bs => pixelCells b row x0 [0, 1, 2, 3, 4, 5, 6, 7] ++ spriteCells x0 (row + 1) bs

theorem toggleAll_append (ps qs : List (Fin 32 × Fin 64)) (acc : Display × Bool) :
    toggleAll (ps ++ qs) acc = toggleAll qs (toggleAll ps acc) := by
  induction ps generalizing acc with
  | nil => rfl
  | cons p ps ih => exact ih _

theorem drawPixels_eq (b : Byte) (row x0 : Nat) (cs : List Nat) (acc : Display × Bool) :
    drawPixels b row x0 cs acc = toggleAll (pixelCells b row x0 cs) acc := by
  induction cs generalizing acc with
  | nil => rfl
  | cons c cs ih =>
    rw [drawPixels, ih]
    by_cases hb : b.getLsbD (7 - c) = true
    · cases hc : spriteCell row (x0 + c) with
      | none => simp [pixelCells, hb, hc, drawPixel]
      | some p => simp [pixelCells, hb, hc, drawPixel, toggleAll]
    · simp [pixelCells, hb]

theorem drawSprite_eq (x0 row : Nat) (bs : List Byte) (acc : Display × Bool) :
    drawSprite x0 row bs acc = toggleAll (spriteCells x0 row bs) acc := by
  induction bs generalizing row acc with
  | nil => rfl
  | cons b bs ih => rw [drawSprite, ih, drawPixels_eq, spriteCells, toggleAll_append]

/-- Toggling distinct cells inverts each of them once, and a collision is noted iff one of them was 1 before. -/
theorem toggleAll_nodup (ps : List (Fin 32 × Fin 64)) (h : ps.Nodup) (d : Display) (c : Bool) :
    (∀ row col, (toggleAll ps (d, c)).1.cell row col = if (row, col) ∈ ps then !d.cell row col else d.cell row col) ∧
    ((toggleAll ps (d, c)).2 = true ↔ c = true ∨ ∃ p ∈ ps, d.cell p.1 p.2 = true) := by
  induction ps generalizing d c with
  | nil => simp [toggleAll]
  | cons p ps ih =>
    rw [List.nodup_cons] at h
    obtain ⟨hcell, hcoll⟩ := ih h.2 (d.toggle p.1 p.2) (c || d.cell p.1 p.2)
    refine ⟨fun row col => ?_, ?_⟩
    · rw [toggleAll, hcell, Display.cell_toggle]
      by_cases hp : (row, col) = p
      · subst hp
        simp [h.1]
      · have : ¬ (row = p.1 ∧ col = p.2) := fun e => hp (Prod.ext e.1 e.2)
        simp [hp, this]
    · have keep : ∀ q ∈ ps, (d.toggle p.1 p.2).cell q.1 q.2 = d.cell q.1 q.2 := by
        intro q hq
        have : ¬ (q.1 = p.1 ∧ q.2 = p.2) := fun e => h.1 (by rwa [← Prod.ext e.1 e.2])
        rw [Display.cell_toggle, if_neg this]
      rw [toggleAll, hcoll]
      simp only [Bool.or_eq_true, List.mem_cons, exists_eq_or_imp, or_assoc]
      refine or_congr_right (or_congr_right ⟨?_, ?_⟩)
      · rintro ⟨q, hq, e⟩
        exact ⟨q, hq, by rwa [keep q hq] at e⟩
      · rintro ⟨q, hq, e⟩
        exact ⟨q, hq, by rwa [keep q hq]⟩

/-- The cell of a pixel (R172, R175). -/
theorem spriteCell_eq_some (row col : Nat) (p : Fin 32 × Fin 64) :
    spriteCell row col = some p ↔ (row < 32 ∨ col < 64) ∧ p.1.val = row % 32 ∧ p.2.val = col % 64 := by
  unfold spriteCell
  by_cases h : row ≥ Config.dispHeight ∧ col ≥ Config.dispWidth
  · rw [if_pos h]
    simp only [Config.dispHeight, Config.dispWidth] at h
    simp only [reduceCtorEq, false_iff]
    omega
  · rw [if_neg h]
    simp only [Config.dispHeight, Config.dispWidth] at h
    simp only [Option.some.injEq, Prod.ext_iff, Fin.ext_iff]
    constructor
    · rintro ⟨e, f⟩
      exact ⟨by omega, e.symm, f.symm⟩
    · rintro ⟨_, e, f⟩
      exact ⟨e.symm, f.symm⟩

theorem mem_pixelCells (b : Byte) (row x0 : Nat) (cs : List Nat) (p : Fin 32 × Fin 64) :
    p ∈ pixelCells b row x0 cs ↔ ∃ c ∈ cs, b.getLsbD (7 - c) = true ∧ spriteCell row (x0 + c) = some p := by
  simp [pixelCells]

/-- Which cells a sprite's pixels have. -/
theorem mem_spriteCells (x0 row : Nat) (bs : List Byte) (p : Fin 32 × Fin 64) :
    p ∈ spriteCells x0 row bs ↔
      ∃ r c : Nat, r < bs.length ∧ c < 8 ∧ (bs.getD r 0#8).getLsbD (7 - c) = true ∧
        spriteCell (row + r) (x0 + c) = some p := by
  induction bs generalizing row with
  | nil => simp [spriteCells]
  | cons b bs ih =>
    rw [spriteCells, List.mem_append, mem_pixelCells, ih]
    constructor
    · rintro (⟨c, hc, hb, e⟩ | ⟨r, c, hr, hc, hb, e⟩)
      · exact ⟨0, c, by simp, by simp at hc; omega, by simpa using hb, by simpa using e⟩
      · exact ⟨r + 1, c, by simpa using hr, hc, by simpa using hb, by rw [← e]; congr 1; omega⟩
    · rintro ⟨r, c, hr, hc, hb, e⟩
      cases r with
      | zero => exact .inl ⟨c, by simp; omega, by simpa using hb, by simpa using e⟩
      | succ r =>
        exact .inr ⟨r, c, by simpa using hr, hc, by simpa using hb, by rw [← e]; congr 1; omega⟩

/-- No two pixels of a sprite have the same cell (R172: the map from sprite pixels to cells is injective). -/
theorem spriteCells_nodup (x0 row : Nat) (bs : List Byte) (h : bs.length ≤ 16) : (spriteCells x0 row bs).Nodup := by
  induction bs generalizing row with
  | nil => simp [spriteCells]
  | cons b bs ih =>
    simp only [List.length_cons] at h
    rw [spriteCells, List.nodup_append]
    refine ⟨?_, ih (row + 1) (by omega), ?_⟩
    · rw [pixelCells, List.Nodup, List.pairwise_filterMap]
      have hnd : [0, 1, 2, 3, 4, 5, 6, 7].Nodup := by decide
      refine List.Pairwise.imp_of_mem ?_ hnd
      intro c c' hc hc' hne p hp q hq hpq
      subst hpq
      simp only [List.mem_cons, List.not_mem_nil, or_false] at hc hc'
      split at hp
      · split at hq
        · rw [spriteCell_eq_some] at hp hq
          omega
        · simp at hq
      · simp at hp
    · intro p hp q hq hpq
      subst hpq
      rw [mem_pixelCells] at hp
      rw [mem_spriteCells] at hq
      obtain ⟨c, _, _, e⟩ := hp
      obtain ⟨r, c', hr, _, _, e'⟩ := hq
      rw [spriteCell_eq_some] at e e'
      omega

/-- R172, once and for all: what drawing a sprite of at most 16 rows on a display does. -/
theorem drawSprite_spec (x0 row : Nat) (bs : List Byte) (h : bs.length ≤ 16) (d : Display) :
    (∀ r c, (drawSprite x0 row bs (d, false)).1.cell r c =
      if (r, c) ∈ spriteCells x0 row bs then !d.cell r c else d.cell r c) ∧
    ((drawSprite x0 row bs (d, false)).2 = true ↔ ∃ p ∈ spriteCells x0 row bs, d.cell p.1 p.2 = true) := by
  rw [drawSprite_eq]
  have := toggleAll_nodup _ (spriteCells_nodup x0 row bs h) d false
  simpa using this

end Sys2Proof.Machine
end

