-- ==== Sys2Proof/Laws/Encoding.lean ====
section
/-! SUPPORT. The fields of encoded words (30_encoding.md R91, R92). -/

namespace Sys2Proof

theorem fieldClass_eq (w : Word) : fieldClass w = w.toNat / 4096 := by
  have := w.isLt
  simp only [fieldClass, BitVec.extractLsb'_toNat, Nat.shiftRight_eq_div_pow]
  omega

theorem fieldX_val (w : Word) : (fieldX w).val = w.toNat / 256 % 16 := by
  simp [fieldX, BitVec.extractLsb'_toNat, Nat.shiftRight_eq_div_pow]

theorem fieldY_val (w : Word) : (fieldY w).val = w.toNat / 16 % 16 := by
  simp [fieldY, BitVec.extractLsb'_toNat, Nat.shiftRight_eq_div_pow]

theorem fieldN_val (w : Word) : (fieldN w).val = w.toNat % 16 := by
  simp [fieldN, BitVec.extractLsb'_toNat]

theorem fieldKk_toNat (w : Word) : (fieldKk w).toNat = w.toNat % 256 := by
  simp [fieldKk, BitVec.extractLsb'_toNat]

theorem fieldNnn_toNat (w : Word) : (fieldNnn w).toNat = w.toNat % 4096 := by
  simp [fieldNnn, BitVec.extractLsb'_toNat]

theorem wordNnn_toNat (c : Nat) (hc : c < 16) (nnn : Imm12) : (wordNnn c nnn).toNat = c * 4096 + nnn.toNat := by
  have := nnn.isLt
  simp only [wordNnn, BitVec.toNat_ofNat]
  omega

theorem wordXkk_toNat (c : Nat) (hc : c < 16) (x : Reg) (kk : Byte) :
    (wordXkk c x kk).toNat = c * 4096 + x.val * 256 + kk.toNat := by
  have := kk.isLt
  have := x.isLt
  simp only [wordXkk, BitVec.toNat_ofNat]
  omega

theorem wordXyn_toNat (c : Nat) (hc : c < 16) (x y : Reg) (n : Fin 16) :
    (wordXyn c x y n).toNat = c * 4096 + x.val * 256 + y.val * 16 + n.val := by
  have := n.isLt
  have := x.isLt
  have := y.isLt
  simp only [wordXyn, BitVec.toNat_ofNat]
  omega

/-! ### The fields of a word built from fields -/

theorem fieldClass_wordNnn (c : Nat) (hc : c < 16) (nnn : Imm12) : fieldClass (wordNnn c nnn) = c := by
  have := nnn.isLt
  rw [fieldClass_eq, wordNnn_toNat c hc]
  omega

theorem fieldNnn_wordNnn (c : Nat) (hc : c < 16) (nnn : Imm12) : fieldNnn (wordNnn c nnn) = nnn := by
  have := nnn.isLt
  apply BitVec.eq_of_toNat_eq
  rw [fieldNnn_toNat, wordNnn_toNat c hc]
  omega

theorem fieldClass_wordXkk (c : Nat) (hc : c < 16) (x : Reg) (kk : Byte) : fieldClass (wordXkk c x kk) = c := by
  have := kk.isLt
  have := x.isLt
  rw [fieldClass_eq, wordXkk_toNat c hc]
  omega

theorem fieldX_wordXkk (c : Nat) (hc : c < 16) (x : Reg) (kk : Byte) : fieldX (wordXkk c x kk) = x := by
  have := kk.isLt
  have := x.isLt
  apply Fin.ext
  rw [fieldX_val, wordXkk_toNat c hc]
  omega

theorem fieldKk_wordXkk (c : Nat) (hc : c < 16) (x : Reg) (kk : Byte) : fieldKk (wordXkk c x kk) = kk := by
  have := kk.isLt
  have := x.isLt
  apply BitVec.eq_of_toNat_eq
  rw [fieldKk_toNat, wordXkk_toNat c hc]
  omega

theorem fieldClass_wordXyn (c : Nat) (hc : c < 16) (x y : Reg) (n : Fin 16) :
    fieldClass (wordXyn c x y n) = c := by
  have := n.isLt
  have := x.isLt
  have := y.isLt
  rw [fieldClass_eq, wordXyn_toNat c hc]
  omega

theorem fieldX_wordXyn (c : Nat) (hc : c < 16) (x y : Reg) (n : Fin 16) : fieldX (wordXyn c x y n) = x := by
  have := n.isLt
  have := x.isLt
  have := y.isLt
  apply Fin.ext
  rw [fieldX_val, wordXyn_toNat c hc]
  omega

theorem fieldY_wordXyn (c : Nat) (hc : c < 16) (x y : Reg) (n : Fin 16) : fieldY (wordXyn c x y n) = y := by
  have := n.isLt
  have := x.isLt
  have := y.isLt
  apply Fin.ext
  rw [fieldY_val, wordXyn_toNat c hc]
  omega

theorem fieldN_wordXyn (c : Nat) (hc : c < 16) (x y : Reg) (n : Fin 16) : fieldN (wordXyn c x y n) = n := by
  have := n.isLt
  have := x.isLt
  have := y.isLt
  apply Fin.ext
  rw [fieldN_val, wordXyn_toNat c hc]
  omega

/-! ### A word rebuilt from its fields -/

theorem wordNnn_fields (w : Word) (c : Nat) (h : fieldClass w = c) : wordNnn c (fieldNnn w) = w := by
  have := w.isLt
  rw [fieldClass_eq] at h
  apply BitVec.eq_of_toNat_eq
  rw [wordNnn_toNat c (by omega), fieldNnn_toNat]
  omega

theorem wordXkk_fields (w : Word) (c : Nat) (h : fieldClass w = c) : wordXkk c (fieldX w) (fieldKk w) = w := by
  have := w.isLt
  rw [fieldClass_eq] at h
  apply BitVec.eq_of_toNat_eq
  rw [wordXkk_toNat c (by omega), fieldX_val, fieldKk_toNat]
  omega

theorem wordXyn_fields (w : Word) (c : Nat) (h : fieldClass w = c) :
    wordXyn c (fieldX w) (fieldY w) (fieldN w) = w := by
  have := w.isLt
  rw [fieldClass_eq] at h
  apply BitVec.eq_of_toNat_eq
  rw [wordXyn_toNat c (by omega), fieldX_val, fieldY_val, fieldN_val]
  omega

/-! ### Words as R94's patterns write them: the match value plus the fields in their places -/

theorem pattern_nnn (k c : Nat) (nnn : Imm12) (h : k = c * 4096) :
    BitVec.ofNat 16 (k + nnn.toNat) = wordNnn c nnn := by
  subst h
  rfl

theorem pattern_xkk (k c : Nat) (x : Reg) (kk : Byte) (h : k = c * 4096) :
    BitVec.ofNat 16 (k + 0x100 * x.val + kk.toNat) = wordXkk c x kk := by
  subst h
  rw [wordXkk, Nat.mul_comm 0x100]

theorem pattern_xoo (k c : Nat) (x : Reg) (kk : Byte) (h : k = c * 4096 + kk.toNat) :
    BitVec.ofNat 16 (k + 0x100 * x.val) = wordXkk c x kk := by
  subst h
  rw [wordXkk]
  congr 1
  omega

theorem pattern_xyo (k c : Nat) (x y : Reg) (n : Fin 16) (h : k = c * 4096 + n.val) :
    BitVec.ofNat 16 (k + 0x100 * x.val + 0x10 * y.val) = wordXyn c x y n := by
  subst h
  rw [wordXyn]
  congr 1
  omega

theorem pattern_xyn (k c : Nat) (x y : Reg) (n : Fin 16) (h : k = c * 4096) :
    BitVec.ofNat 16 (k + 0x100 * x.val + 0x10 * y.val + n.val) = wordXyn c x y n := by
  subst h
  rw [wordXyn]
  congr 1
  omega

/-- R69: the two bytes of a word give the word back. -/
theorem wordOfBytes_bytesOfWord (w : Word) : wordOfBytes (bytesOfWord w).1 (bytesOfWord w).2 = w := by
  have := w.isLt
  apply BitVec.eq_of_toNat_eq
  simp only [wordOfBytes, bytesOfWord, BitVec.toNat_ofNat, BitVec.extractLsb'_toNat, Nat.shiftRight_eq_div_pow]
  omega

end Sys2Proof
end

