-- ==== Sys2Proof/Laws/Exec.lean ====
section
/-! SUPPORT. One equation per instruction and outcome: what `exec` answers, in terms of the shared operations; and the
frame that all instructions share. -/

namespace Sys2Proof.Machine

/-! ### Instructions that never fault (R221) -/

theorem exec_cls (s : State) : exec .cls s = .next ({ s with disp := Display.clear } : State).advance := rfl
theorem exec_sys (n : Imm12) (s : State) : exec (.sys n) s = .next s.advance := rfl
theorem exec_jp (n : Imm12) (s : State) : exec (.jp n) s = .next (s.setPc (zext16 n)) := rfl
theorem exec_seVxKk (x : Reg) (kk : Byte) (s : State) :
    exec (.seVxKk x kk) s = .next (s.skipIf (s.reg x == kk)) := rfl
theorem exec_sneVxKk (x : Reg) (kk : Byte) (s : State) :
    exec (.sneVxKk x kk) s = .next (s.skipIf (s.reg x != kk)) := rfl
theorem exec_ldVxKk (x : Reg) (kk : Byte) (s : State) : exec (.ldVxKk x kk) s = .next (s.setReg x kk).advance := rfl
theorem exec_addVxKk (x : Reg) (kk : Byte) (s : State) :
    exec (.addVxKk x kk) s = .next (s.setReg x (s.reg x + kk)).advance := rfl
theorem exec_ldVxVy (x y : Reg) (s : State) : exec (.ldVxVy x y) s = .next (s.setReg x (s.reg y)).advance := rfl
theorem exec_andVxVy (x y : Reg) (s : State) :
    exec (.andVxVy x y) s = .next (s.setReg x (s.reg x &&& s.reg y)).advance := rfl
theorem exec_xorVxVy (x y : Reg) (s : State) :
    exec (.xorVxVy x y) s = .next (s.setReg x (s.reg x ^^^ s.reg y)).advance := rfl
theorem exec_addVxVy (x y : Reg) (s : State) :
    exec (.addVxVy x y) s =
      .next ((s.setReg VF (addFlag (s.reg x) (s.reg y))).setReg x (s.reg x + s.reg y)).advance := rfl
theorem exec_subVxVy (x y : Reg) (s : State) :
    exec (.subVxVy x y) s =
      .next ((s.setReg VF (subFlag (s.reg x) (s.reg y))).setReg x (s.reg x - s.reg y)).advance := rfl
theorem exec_shrVx (x y : Reg) (s : State) :
    exec (.shrVx x y) s = .next ((s.setReg VF (shrFlag (s.reg x))).setReg x (s.reg x >>> 1)).advance := rfl
theorem exec_ldINnn (n : Imm12) (s : State) :
    exec (.ldINnn n) s = .next ({ s with i := zext16 n } : State).advance := rfl
theorem exec_addIVx (x : Reg) (s : State) :
    exec (.addIVx x) s = .next ({ s with i := s.i + (s.reg x).setWidth 16 } : State).advance := rfl
theorem exec_rndVxKk (x : Reg) (kk : Byte) (s : State) :
    exec (.rndVxKk x kk) s =
      .next ({ s.setReg x (Config.draw8 s.draws &&& kk) with draws := s.draws + 1 } : State).advance := rfl
theorem exec_ldVxDt (x : Reg) (s : State) : exec (.ldVxDt x) s = .next (s.setReg x s.dt).advance := rfl
theorem exec_ldDtVx (x : Reg) (s : State) :
    exec (.ldDtVx x) s = .next ({ s with dt := s.reg x } : State).advance := rfl
theorem exec_ldStVx (x : Reg) (s : State) :
    exec (.ldStVx x) s = .next ({ s with st := s.reg x } : State).advance := rfl

/-! ### LD Vx,K -/

theorem exec_ldVxK_wait (x : Reg) (s : State) (h : s.keys = 0#16) : exec (.ldVxK x) s = .next s := if_pos h

theorem exec_ldVxK_load (x : Reg) (s : State) (h : s.keys ≠ 0#16) :
    exec (.ldVxK x) s = .next (s.setReg x (BitVec.ofNat 8 (keySelect s.keys).val)).advance := if_neg h

/-! ### Instructions that may fault: each equation under its condition, and the condition that decides -/

theorem exec_ret_empty (s : State) (h : s.sp.val = 0) : exec .ret s = raise .stackUnderflow (encode .ret) s := by
  simp only [exec, execRet, (pop_eq_none s).2 h]

theorem exec_ret_pop (s : State) (n : Fin 16) (h : s.sp.val = n.val + 1) :
    exec .ret s = .next (({ s with sp := ⟨n.val, by omega⟩ } : State).setPc (s.slot n)) := by
  simp only [exec, execRet, (pop_eq_some s _ _).2 ⟨n, h, rfl, rfl⟩]

theorem exec_call_full (nnn : Imm12) (s : State) (h : s.sp.val = 16) :
    exec (.call nnn) s = raise .stackOverflow (encode (.call nnn)) s := by
  simp only [exec, execCall, (push_eq_none s _).2 h]

theorem exec_call_push (nnn : Imm12) (s : State) (h : s.sp.val < 16) :
    exec (.call nnn) s =
      .next (({ s with sp := ⟨s.sp.val + 1, by omega⟩, stack := s.stack.set s.sp.val s.nextPC } : State).setPc
        (zext16 nnn)) := by
  simp only [exec, execCall, (push_eq_some s _ _).2 ⟨h, rfl⟩]

/-- The bytes of a memory operand of n bytes at I. -/
def operandBytes (s : State) (n : Nat) : List Byte := (List.range n).map fun k => s.readByte (s.i.toNat + k)

@[simp] theorem operandBytes_length (s : State) (n : Nat) : (operandBytes s n).length = n := by simp [operandBytes]

theorem operandBytes_getD (s : State) (n k : Nat) (h : k < n) (d : Byte) :
    (operandBytes s n).getD k d = s.readByte (s.i.toNat + k) := by simp [operandBytes, h]

theorem exec_drw_out (x y : Reg) (n : Rows) (s : State) (h0 : 0 < n.val) (h : 4096 < s.i.toNat + n.val) :
    exec (.drw x y n) s = raise .memRange (encode (.drw x y n)) s := by
  have e : memRead s (s.address 0) n.val = none := (memRead_eq_none s _ _).2 ⟨h0, h⟩
  simp [exec, execDrw, execDrwWith, Config.drwCorner, e]

theorem exec_drw_draw (x y : Reg) (n : Rows) (s : State) (h : n.val = 0 ∨ s.i.toNat + n.val ≤ 4096) :
    exec (.drw x y n) s =
      .next (({ s with
          disp := (drawSprite (s.spriteX x) (s.spriteY y) (operandBytes s n.val) (s.disp, false)).1 } : State).setReg VF
        (collisionFlag (drawSprite (s.spriteX x) (s.spriteY y) (operandBytes s n.val) (s.disp, false)).2)).advance := by
  have e : memRead s (s.address 0) n.val = some (operandBytes s n.val) := (memRead_eq_some s _ _ _).2 ⟨h, rfl⟩
  simp only [exec, execDrw, execDrwWith, Config.drwCorner, e, reduceCtorEq, false_and, if_false]

theorem exec_ldBVx_out (x : Reg) (s : State) (h : 4095 < s.i.toNat + 2) :
    exec (.ldBVx x) s = raise .memRange (encode (.ldBVx x)) s := by
  have e : memWrite s (s.address 0) (decimalBytes (s.reg x)) = none :=
    (memWrite_eq_none s _ _).2 (by simp [decimalBytes, State.address]; omega)
  simp only [exec, execLdBVx, e]

theorem exec_ldBVx_store (x : Reg) (s : State) (h : s.i.toNat + 2 ≤ 4095) :
    exec (.ldBVx x) s =
      .next ({ s with mem := s.mem.writeBytes s.i.toNat (decimalBytes (s.reg x)) } : State).advance := by
  have e := (memWrite_eq_some s _ (s.address 0) (decimalBytes (s.reg x))).2
    ⟨by simp [decimalBytes, State.address]; omega, rfl⟩
  simp only [exec, execLdBVx, e]
  rfl

theorem exec_ldVxI_out (x : Reg) (s : State) (h : 4095 < s.i.toNat + x.val) :
    exec (.ldVxI x) s = raise .memRange (encode (.ldVxI x)) s := by
  have e : memRead s (s.address 0) (x.val + 1) = none :=
    (memRead_eq_none s _ _).2 ⟨by omega, by simp [State.address]; omega⟩
  simp only [exec, execLdVxI, e]

theorem exec_ldVxI_load (x : Reg) (s : State) (h : s.i.toNat + x.val ≤ 4095) :
    exec (.ldVxI x) s = .next ({ s with v := Regs.load s.v 0 (operandBytes s (x.val + 1)) } : State).advance := by
  have e : memRead s (s.address 0) (x.val + 1) = some (operandBytes s (x.val + 1)) :=
    (memRead_eq_some s _ _ _).2 ⟨by simp [State.address]; omega, rfl⟩
  simp only [exec, execLdVxI, e]

theorem exec_skp_out (x : Reg) (s : State) (h : 15 < (s.reg x).toNat) :
    exec (.skp x) s = raise .keyIndex (encode (.skp x)) s := by
  have h' : ¬ (s.reg x).toNat < 16 := by omega
  simp [exec, execSkp, State.keyIndex, h']

theorem exec_skp_test (x : Reg) (s : State) (k : Key) (h : (s.reg x).toNat = k.val) :
    exec (.skp x) s = .next (s.skipIf (s.key k)) := by
  have hk := k.isLt
  have e : s.keyIndex x = some k := by simp [State.keyIndex, h]
  simp only [exec, execSkp, e]

theorem exec_sknp_out (x : Reg) (s : State) (h : 15 < (s.reg x).toNat) :
    exec (.sknp x) s = raise .keyIndex (encode (.sknp x)) s := by
  have h' : ¬ (s.reg x).toNat < 16 := by omega
  simp [exec, execSknp, State.keyIndex, h']

theorem exec_sknp_test (x : Reg) (s : State) (k : Key) (h : (s.reg x).toNat = k.val) :
    exec (.sknp x) s = .next (s.skipIf (!s.key k)) := by
  have hk := k.isLt
  have e : s.keyIndex x = some k := by simp [State.keyIndex, h]
  simp only [exec, execSknp, e]

/-! ### What every instruction keeps -/

/-- Two states agree in the fault record, the inputs, RUN and the model's schedule. -/
structure SameControl (s t : State) : Prop where
  fault : t.fault = s.fault
  fcode : t.fcode = s.fcode
  fpc : t.fpc = s.fpc
  fiw : t.fiw = s.fiw
  run : t.run = s.run
  keys : t.keys = s.keys
  aborted : t.aborted = s.aborted
  turns : t.turns = s.turns

/-- An instruction raises a fault with its own word, or completes and leaves the fault record, KEYS, RUN and the
schedule as they were. -/
theorem exec_raises_or_completes (i : Instr) (s : State) :
    (∃ k, exec i s = raise k (encode i) s) ∨ ∃ t, exec i s = .next t ∧ SameControl s t := by
  have hsp := s.sp.isLt
  cases i with
  | ret =>
    by_cases h : s.sp.val = 0
    · exact .inl ⟨_, exec_ret_empty s h⟩
    · exact .inr ⟨_, exec_ret_pop s ⟨s.sp.val - 1, by omega⟩ (by simp only; omega), ⟨rfl, rfl, rfl, rfl, rfl, rfl, rfl, rfl⟩⟩
  | call nnn =>
    by_cases h : s.sp.val = 16
    · exact .inl ⟨_, exec_call_full nnn s h⟩
    · exact .inr ⟨_, exec_call_push nnn s (by omega), ⟨rfl, rfl, rfl, rfl, rfl, rfl, rfl, rfl⟩⟩
  | drw x y n =>
    by_cases h : n.val = 0 ∨ s.i.toNat + n.val ≤ 4096
    · exact .inr ⟨_, exec_drw_draw x y n s h, ⟨rfl, rfl, rfl, rfl, rfl, rfl, rfl, rfl⟩⟩
    · exact .inl ⟨_, exec_drw_out x y n s (by omega) (by omega)⟩
  | ldBVx x =>
    by_cases h : s.i.toNat + 2 ≤ 4095
    · exact .inr ⟨_, exec_ldBVx_store x s h, ⟨rfl, rfl, rfl, rfl, rfl, rfl, rfl, rfl⟩⟩
    · exact .inl ⟨_, exec_ldBVx_out x s (by omega)⟩
  | ldVxI x =>
    by_cases h : s.i.toNat + x.val ≤ 4095
    · exact .inr ⟨_, exec_ldVxI_load x s h, ⟨rfl, rfl, rfl, rfl, rfl, rfl, rfl, rfl⟩⟩
    · exact .inl ⟨_, exec_ldVxI_out x s (by omega)⟩
  | skp x =>
    by_cases h : (s.reg x).toNat < 16
    · exact .inr ⟨_, exec_skp_test x s ⟨_, h⟩ rfl, ⟨rfl, rfl, rfl, rfl, rfl, rfl, rfl, rfl⟩⟩
    · exact .inl ⟨_, exec_skp_out x s (by omega)⟩
  | sknp x =>
    by_cases h : (s.reg x).toNat < 16
    · exact .inr ⟨_, exec_sknp_test x s ⟨_, h⟩ rfl, ⟨rfl, rfl, rfl, rfl, rfl, rfl, rfl, rfl⟩⟩
    · exact .inl ⟨_, exec_sknp_out x s (by omega)⟩
  | ldVxK x =>
    by_cases h : s.keys = 0#16
    · exact .inr ⟨_, exec_ldVxK_wait x s h, ⟨rfl, rfl, rfl, rfl, rfl, rfl, rfl, rfl⟩⟩
    · exact .inr ⟨_, exec_ldVxK_load x s h, ⟨rfl, rfl, rfl, rfl, rfl, rfl, rfl, rfl⟩⟩
  | cls => exact .inr ⟨_, exec_cls s, ⟨rfl, rfl, rfl, rfl, rfl, rfl, rfl, rfl⟩⟩
  | sys n => exact .inr ⟨_, exec_sys n s, ⟨rfl, rfl, rfl, rfl, rfl, rfl, rfl, rfl⟩⟩
  | jp n => exact .inr ⟨_, exec_jp n s, ⟨rfl, rfl, rfl, rfl, rfl, rfl, rfl, rfl⟩⟩
  | seVxKk x kk => exact .inr ⟨_, exec_seVxKk x kk s, ⟨rfl, rfl, rfl, rfl, rfl, rfl, rfl, rfl⟩⟩
  | sneVxKk x kk => exact .inr ⟨_, exec_sneVxKk x kk s, ⟨rfl, rfl, rfl, rfl, rfl, rfl, rfl, rfl⟩⟩
  | ldVxKk x kk => exact .inr ⟨_, exec_ldVxKk x kk s, ⟨rfl, rfl, rfl, rfl, rfl, rfl, rfl, rfl⟩⟩
  | addVxKk x kk => exact .inr ⟨_, exec_addVxKk x kk s, ⟨rfl, rfl, rfl, rfl, rfl, rfl, rfl, rfl⟩⟩
  | ldVxVy x y => exact .inr ⟨_, exec_ldVxVy x y s, ⟨rfl, rfl, rfl, rfl, rfl, rfl, rfl, rfl⟩⟩
  | andVxVy x y => exact .inr ⟨_, exec_andVxVy x y s, ⟨rfl, rfl, rfl, rfl, rfl, rfl, rfl, rfl⟩⟩
  | xorVxVy x y => exact .inr ⟨_, exec_xorVxVy x y s, ⟨rfl, rfl, rfl, rfl, rfl, rfl, rfl, rfl⟩⟩
  | addVxVy x y => exact .inr ⟨_, exec_addVxVy x y s, ⟨rfl, rfl, rfl, rfl, rfl, rfl, rfl, rfl⟩⟩
  | subVxVy x y => exact .inr ⟨_, exec_subVxVy x y s, ⟨rfl, rfl, rfl, rfl, rfl, rfl, rfl, rfl⟩⟩
  | shrVx x y => exact .inr ⟨_, exec_shrVx x y s, ⟨rfl, rfl, rfl, rfl, rfl, rfl, rfl, rfl⟩⟩
  | ldINnn n => exact .inr ⟨_, exec_ldINnn n s, ⟨rfl, rfl, rfl, rfl, rfl, rfl, rfl, rfl⟩⟩
  | rndVxKk x kk => exact .inr ⟨_, exec_rndVxKk x kk s, ⟨rfl, rfl, rfl, rfl, rfl, rfl, rfl, rfl⟩⟩
  | ldVxDt x => exact .inr ⟨_, exec_ldVxDt x s, ⟨rfl, rfl, rfl, rfl, rfl, rfl, rfl, rfl⟩⟩
  | ldDtVx x => exact .inr ⟨_, exec_ldDtVx x s, ⟨rfl, rfl, rfl, rfl, rfl, rfl, rfl, rfl⟩⟩
  | ldStVx x => exact .inr ⟨_, exec_ldStVx x s, ⟨rfl, rfl, rfl, rfl, rfl, rfl, rfl, rfl⟩⟩
  | addIVx x => exact .inr ⟨_, exec_addIVx x s, ⟨rfl, rfl, rfl, rfl, rfl, rfl, rfl, rfl⟩⟩

/-! ### The step -/

/-- The step of the CPU agent: it passes, faults in fetch or decode, or runs the decoded instruction. -/
theorem cpuStep_cases (s : State) :
    (s.cpuEnabled = false ∧ cpuStep s = .next s) ∨
    (s.cpuEnabled = true ∧
      ((s.fetchWord = none ∧ cpuStep s = raise .memRange 0x0000#16 s) ∨
       (∃ w e, s.fetchWord = some w ∧ decodeWord w = .error e ∧ cpuStep s = raise .unhandledInstruction w s) ∨
       (∃ w i, s.fetchWord = some w ∧ decodeWord w = .ok i ∧ cpuStep s = exec i s))) := by
  cases he : s.cpuEnabled with
  | false => exact .inl ⟨rfl, by simp [cpuStep, he]⟩
  | true =>
    refine .inr ⟨rfl, ?_⟩
    cases hf : s.fetchWord with
    | none => exact .inl ⟨rfl, by simp [cpuStep, he, hf]⟩
    | some w =>
      cases hd : decodeWord w with
      | error e => exact .inr (.inl ⟨w, e, rfl, hd, by simp [cpuStep, he, hf, runWord, hd]⟩)
      | ok i => exact .inr (.inr ⟨w, i, rfl, hd, by simp [cpuStep, he, hf, runWord, hd]⟩)

/-- What a step can be: a CPU step with its three sources of an outcome, a turn that passes, a tick, or a host move. -/
theorem step_cases (s : State) :
    (s.nextTurn = .cpu ∧ s.cpuEnabled = false ∧ step s = .next s.popTurn) ∨
    (s.CpuReady ∧ s.fetchWord = none ∧ step s = raise .memRange 0x0000#16 s.popTurn) ∨
    (s.CpuReady ∧ ∃ w e, s.fetchWord = some w ∧ decodeWord w = .error e ∧
      step s = raise .unhandledInstruction w s.popTurn) ∨
    (s.CpuReady ∧ ∃ w i, s.fetchWord = some w ∧ decodeWord w = .ok i ∧ step s = exec i s.popTurn) ∨
    (s.nextTurn = .tick ∧ step s = .next (timerTick s.popTurn)) ∨
    (∃ m, s.nextTurn = .host m ∧ step s = hostMove m s.popTurn) := by
  have e : step s = agentStep s.nextTurn s.popTurn := rfl
  cases ht : s.nextTurn with
  | tick => exact .inr (.inr (.inr (.inr (.inl ⟨rfl, by rw [e, ht]; rfl⟩))))
  | host m => exact .inr (.inr (.inr (.inr (.inr ⟨m, rfl, by rw [e, ht]; rfl⟩))))
  | cpu =>
    have e' : step s = cpuStep s.popTurn := by rw [e, ht]; rfl
    rw [e']
    rcases cpuStep_cases s.popTurn with ⟨h, hs⟩ | ⟨h, h'⟩
    · exact .inl ⟨rfl, h, hs⟩
    · have hr : s.CpuReady := by
        have h2 : s.cpuEnabled = true := h
        simp only [State.cpuEnabled, Bool.and_eq_true, Bool.not_eq_true'] at h2
        exact ⟨ht, h2⟩
      rcases h' with ⟨hf, hs⟩ | ⟨w, x, hf, hd, hs⟩ | ⟨w, i, hf, hd, hs⟩
      · exact .inr (.inl ⟨hr, hf, hs⟩)
      · exact .inr (.inr (.inl ⟨hr, w, x, hf, hd, hs⟩))
      · exact .inr (.inr (.inr (.inl ⟨hr, w, i, hf, hd, hs⟩)))

end Sys2Proof.Machine
end

