-- ==== Sys2Proof/Laws/PerInstr.lean ====
section
/-! SUPPORT. Per-instruction families: EncodeClass says that the class nibble of an instruction's word is that of its
row of R94. -/

namespace Sys2Proof.Laws

/-- The class of each instruction's row (30_encoding.md R94). -/
def rowClass : Instr → Nat
  | .cls => 0
  | .ret => 0
  | .sys _ => 0
  | .jp _ => 1
  | .call _ => 2
  | .seVxKk _ _ => 3
  | .sneVxKk _ _ => 4
  | .ldVxKk _ _ => 6
  | .addVxKk _ _ => 7
  | .ldVxVy _ _ => 8
  | .andVxVy _ _ => 8
  | .xorVxVy _ _ => 8
  | .addVxVy _ _ => 8
  | .subVxVy _ _ => 8
  | .shrVx _ _ => 8
  | .ldINnn _ => 10
  | .rndVxKk _ _ => 12
  | .drw _ _ _ => 13
  | .skp _ => 14
  | .sknp _ => 14
  | .ldVxDt _ => 15
  | .ldVxK _ => 15
  | .ldDtVx _ => 15
  | .ldStVx _ => 15
  | .addIVx _ => 15
  | .ldBVx _ => 15
  | .ldVxI _ => 15

namespace EncodeClass

/-- The word of the instruction has the class of its row. -/
def Statement (i : Instr) : Prop := fieldClass (encode i) = rowClass i

theorem cls : Statement .cls := fieldClass_wordNnn 0 (by decide) 0x0E0#12
theorem ret : Statement .ret := fieldClass_wordNnn 0 (by decide) 0x0EE#12
theorem sys (nnn : Imm12) : Statement (.sys nnn) := fieldClass_wordNnn 0 (by decide) nnn
theorem jp (nnn : Imm12) : Statement (.jp nnn) := fieldClass_wordNnn 1 (by decide) nnn
theorem call (nnn : Imm12) : Statement (.call nnn) := fieldClass_wordNnn 2 (by decide) nnn
theorem seVxKk (x : Reg) (kk : Byte) : Statement (.seVxKk x kk) := fieldClass_wordXkk 3 (by decide) x _
theorem sneVxKk (x : Reg) (kk : Byte) : Statement (.sneVxKk x kk) := fieldClass_wordXkk 4 (by decide) x _
theorem ldVxKk (x : Reg) (kk : Byte) : Statement (.ldVxKk x kk) := fieldClass_wordXkk 6 (by decide) x _
theorem addVxKk (x : Reg) (kk : Byte) : Statement (.addVxKk x kk) := fieldClass_wordXkk 7 (by decide) x _
theorem ldVxVy (x y : Reg) : Statement (.ldVxVy x y) := fieldClass_wordXyn 8 (by decide) x y _
theorem andVxVy (x y : Reg) : Statement (.andVxVy x y) := fieldClass_wordXyn 8 (by decide) x y _
theorem xorVxVy (x y : Reg) : Statement (.xorVxVy x y) := fieldClass_wordXyn 8 (by decide) x y _
theorem addVxVy (x y : Reg) : Statement (.addVxVy x y) := fieldClass_wordXyn 8 (by decide) x y _
theorem subVxVy (x y : Reg) : Statement (.subVxVy x y) := fieldClass_wordXyn 8 (by decide) x y _
theorem shrVx (x y : Reg) : Statement (.shrVx x y) := fieldClass_wordXyn 8 (by decide) x y _
theorem ldINnn (nnn : Imm12) : Statement (.ldINnn nnn) := fieldClass_wordNnn 10 (by decide) nnn
theorem rndVxKk (x : Reg) (kk : Byte) : Statement (.rndVxKk x kk) := fieldClass_wordXkk 12 (by decide) x _
theorem drw (x y : Reg) (n : Rows) : Statement (.drw x y n) := fieldClass_wordXyn 13 (by decide) x y _
theorem skp (x : Reg) : Statement (.skp x) := fieldClass_wordXkk 14 (by decide) x _
theorem sknp (x : Reg) : Statement (.sknp x) := fieldClass_wordXkk 14 (by decide) x _
theorem ldVxDt (x : Reg) : Statement (.ldVxDt x) := fieldClass_wordXkk 15 (by decide) x _
theorem ldVxK (x : Reg) : Statement (.ldVxK x) := fieldClass_wordXkk 15 (by decide) x _
theorem ldDtVx (x : Reg) : Statement (.ldDtVx x) := fieldClass_wordXkk 15 (by decide) x _
theorem ldStVx (x : Reg) : Statement (.ldStVx x) := fieldClass_wordXkk 15 (by decide) x _
theorem addIVx (x : Reg) : Statement (.addIVx x) := fieldClass_wordXkk 15 (by decide) x _
theorem ldBVx (x : Reg) : Statement (.ldBVx x) := fieldClass_wordXkk 15 (by decide) x _
theorem ldVxI (x : Reg) : Statement (.ldVxI x) := fieldClass_wordXkk 15 (by decide) x _

end EncodeClass

end Sys2Proof.Laws
end

