-- ==== Sys2Proof/Laws/Schedule.lean ====
section
/-! SUPPORT. What a step of one agent can do, that it does not depend on the schedule, and that fair executions exist from every state. -/

namespace Sys2Proof.Machine

theorem step_eq (s : State) : step s = agentStep s.nextTurn s.popTurn := rfl

/-- The CPU agent always answers a next state. -/
theorem cpuStep_next (s : State) : ∃ t, cpuStep s = .next t := by
  rcases cpuStep_cases s with ⟨-, e⟩ | ⟨-, ⟨-, e⟩ | ⟨w, e', -, -, e⟩ | ⟨w, i, -, -, e⟩⟩
  · exact ⟨_, e⟩
  · exact ⟨_, e⟩
  · exact ⟨_, e⟩
  · rcases exec_raises_or_completes i s with ⟨k, h⟩ | ⟨t, h, -⟩
    · exact ⟨_, e.trans h⟩
    · exact ⟨t, e.trans h⟩

/-- The state after a CPU step or a tick. -/
theorem alternating_next (n : Nat) (s : State) : ∃ t, agentStep (alternating n) s = .next t := by
  unfold alternating
  split
  · exact cpuStep_next s
  · exact ⟨_, rfl⟩

theorem alternating_fair (states : Nat → State) : WeaklyFair alternating states := by
  intro n
  refine ⟨⟨2 * n, by omega, .inl ?_⟩, ⟨2 * n + 1, by omega, .inl ?_⟩⟩ <;> simp [alternating, Nat.add_mod]

/-- From every state there is a fair execution, so a claim about fair executions is not empty (R8). -/
theorem exists_fair_execution (s : State) :
    ∃ acts states, states 0 = s ∧ IsExecution acts states ∧ WeaklyFair acts states := by
  choose next hnext using alternating_next
  exact ⟨alternating, fun n => Nat.rec s (fun k t => next k t) n, rfl, fun n => hnext n _, alternating_fair _⟩

/-- No instruction reads or writes the schedule. -/
theorem exec_turns (i : Instr) (s : State) (q : List Turn) :
    exec i { s with turns := q } = mapNext (fun t => { t with turns := q }) (exec i s) := by
  have hsp := s.sp.isLt
  generalize hS : ({ s with turns := q } : State) = S
  have close : ∀ u : State, ∀ o, exec i s = .next u → o = Host.Outcome.next { u with turns := q } →
      o = mapNext (fun t => { t with turns := q }) (exec i s) := by
    intro u o e ho; rw [e, ho]; rfl
  cases i with
    | ret =>
      by_cases h' : s.sp.val = 0
      · exact close (s.raised _ _) _ (exec_ret_empty s h')
          (by subst hS; exact exec_ret_empty _ h')
      · exact close _ _ (exec_ret_pop s ⟨s.sp.val - 1, by omega⟩ (by simp only; omega))
          (by subst hS; exact exec_ret_pop _ ⟨s.sp.val - 1, by omega⟩ (by simp only; omega))
    | call nnn =>
      by_cases h' : s.sp.val = 16
      · exact close (s.raised _ _) _ (exec_call_full nnn s h')
          (by subst hS; exact exec_call_full nnn _ h')
      · exact close _ _ (exec_call_push nnn s (by omega))
          (by subst hS; exact exec_call_push nnn _ (by simp only; omega))
    | drw x y n =>
      by_cases h' : n.val = 0 ∨ s.i.toNat + n.val ≤ 4096
      · exact close _ _ (exec_drw_draw x y n s h')
          (by subst hS; exact exec_drw_draw x y n _ h')
      · exact close (s.raised _ _) _ (exec_drw_out x y n s (by omega) (by omega))
          (by subst hS; exact exec_drw_out x y n _ (by omega) (by simp only; omega))
    | ldBVx x =>
      by_cases h' : s.i.toNat + 2 ≤ 4095
      · exact close _ _ (exec_ldBVx_store x s h')
          (by subst hS; exact exec_ldBVx_store x _ h')
      · exact close (s.raised _ _) _ (exec_ldBVx_out x s (by omega))
          (by subst hS; exact exec_ldBVx_out x _ (by simp only; omega))
    | ldVxI x =>
      by_cases h' : s.i.toNat + x.val ≤ 4095
      · exact close _ _ (exec_ldVxI_load x s h')
          (by subst hS; exact exec_ldVxI_load x _ h')
      · exact close (s.raised _ _) _ (exec_ldVxI_out x s (by omega))
          (by subst hS; exact exec_ldVxI_out x _ (by simp only; omega))
    | skp x =>
      by_cases h' : (s.reg x).toNat < 16
      · exact close _ _ (exec_skp_test x s ⟨_, h'⟩ rfl)
          (by subst hS; exact exec_skp_test x _ ⟨_, h'⟩ rfl)
      · exact close (s.raised _ _) _ (exec_skp_out x s (by omega))
          (by subst hS; exact exec_skp_out x _ (by change 15 < (s.reg x).toNat; omega))
    | sknp x =>
      by_cases h' : (s.reg x).toNat < 16
      · exact close _ _ (exec_sknp_test x s ⟨_, h'⟩ rfl)
          (by subst hS; exact exec_sknp_test x _ ⟨_, h'⟩ rfl)
      · exact close (s.raised _ _) _ (exec_sknp_out x s (by omega))
          (by subst hS; exact exec_sknp_out x _ (by change 15 < (s.reg x).toNat; omega))
    | ldVxK x =>
      by_cases h' : s.keys = 0#16
      · exact close _ _ (exec_ldVxK_wait x s h')
          (by subst hS; exact exec_ldVxK_wait x _ h')
      · exact close _ _ (exec_ldVxK_load x s h')
          (by subst hS; exact exec_ldVxK_load x _ h')
    | _ => subst hS; exact close _ _ rfl rfl

/-- No agent reads or writes the schedule: only `step` takes turns off it. -/
theorem agentStep_turns (a : Turn) (s : State) (q : List Turn) :
    agentStep a { s with turns := q } = mapNext (fun t => { t with turns := q }) (agentStep a s) := by
  cases a with
  | cpu =>
    rcases cpuStep_cases s with ⟨h, e⟩ | ⟨h, ⟨hf, e⟩ | ⟨w, x, hf, hd, e⟩ | ⟨w, i, hf, hd, e⟩⟩
    all_goals
      simp only [agentStep]; rw [e]
      have h' : ({ s with turns := q } : State).cpuEnabled = _ := h
    · simp [cpuStep, h', mapNext]
    all_goals have hf' : ({ s with turns := q } : State).fetchWord = _ := hf
    · simp [cpuStep, h', hf', raise, mapNext]; rfl
    · simp [cpuStep, h', hf', runWord, hd, raise, mapNext]; rfl
    · rw [← exec_turns]; simp [cpuStep, h', hf', runWord, hd]
  | tick => simp only [agentStep, mapNext, timerTick]; cases h : s.run <;> simp [State.timerEnabled, h]
  | host m =>
    cases m <;> simp only [agentStep, hostMove, hostInit, hostStart, hostAbort] <;> (try rfl)
    · cases s.run <;> simp [mapNext]; split <;> rfl
    · cases s.run <;> cases s.aborted <;> simp [mapNext]
    · cases s.run <;> simp [mapNext]

end Sys2Proof.Machine
end

