-- ==== Sys2Proof/Tests/Slice0.lean ====
section
/-! SUPPORT. Tests of the model against vectors of 95_test_vectors.md (named in each docstring) and words written out from
R94's patterns, and for each obligation that has hypotheses a concrete state and operands that meet them. -/

namespace Sys2Proof.Tests

open Sys2Proof.Machine

/-! ### Helpers -/

/-- The state of the vectors' "Init": reset and started. -/
def ready : State := { State.reset with run := true }

/-- `ready` with some registers set. -/
def regs (rs : List (Reg × Byte)) : State := rs.foldl (fun s p => s.setReg p.1 p.2) ready

/-- `s` with I, and with bytes in memory at I. -/
def atI (s : State) (i : Word) (bytes : List Byte) : State :=
  { s with i := i, mem := s.mem.writeBytes i.toNat bytes }

/-- One step of the machine on the word `w` at PC, and a view of the next state; nothing if the step stops. -/
def view {α : Type} (w : Nat) (s : State) (f : State → α) : Option α :=
  match step (s.withFetchWord 16 w) with
  | .next t => some (f t)
  | _ => none

/-- The state after one step of the machine as it is. -/
def after (s : State) : State :=
  match step s with
  | .next t => t
  | _ => s

/-- The state after an instruction. -/
def afterExec (i : Instr) (s : State) : State :=
  match exec i s with
  | .next t => t
  | _ => s

/-- The fault record. -/
def record (s : State) : Bool × BitVec 3 × Word × Word := (s.fault, s.fcode, s.fpc, s.fiw)

/-- The columns of a display row that are 1. -/
def rowCells (row : Fin 32) (s : State) : List Nat :=
  ((List.finRange 64).filter fun c => s.disp.cell row c).map Fin.val

/-! ### Well-formedness -/

theorem test_wf_refuses_sys_0E0 : Instr.wf (.sys 0x0E0#12) = false := by decide
theorem test_wf_refuses_sys_0EE : Instr.wf (.sys 0x0EE#12) = false := by decide
theorem test_wf_accepts_neighbours :
    Instr.wf (.sys 0x0E1#12) = true ∧ Instr.wf (.sys 0x0DF#12) = true ∧ Instr.wf (.sys 0x0ED#12) = true ∧
      Instr.wf (.sys 0x0EF#12) = true ∧ Instr.wf (.jp 0x0E0#12) = true := by decide

/-! ### Decoding: one word of each row, written out from R94's patterns (DE1 to DE12 and others) -/

theorem test_decode_cls : decodeWord 0x00E0 = .ok .cls := by decide
theorem test_decode_ret : decodeWord 0x00EE = .ok .ret := by decide
theorem test_decode_sys :
    decodeWord 0x0000 = .ok (.sys 0x000) ∧ decodeWord 0x00E1 = .ok (.sys 0x0E1) ∧ decodeWord 0x0FFF = .ok (.sys 0xFFF) := by
  decide
theorem test_decode_jp : decodeWord 0x1ABC = .ok (.jp 0xABC) := by decide
theorem test_decode_call : decodeWord 0x2DEF = .ok (.call 0xDEF) := by decide
theorem test_decode_se : decodeWord 0x3A7F = .ok (.seVxKk 10 0x7F) := by decide
theorem test_decode_sne : decodeWord 0x4B81 = .ok (.sneVxKk 11 0x81) := by decide
theorem test_decode_ldKk : decodeWord 0x6A7F = .ok (.ldVxKk 10 0x7F) := by decide
theorem test_decode_addKk : decodeWord 0x7F03 = .ok (.addVxKk 15 0x03) := by decide
theorem test_decode_ld : decodeWord 0x8120 = .ok (.ldVxVy 1 2) := by decide
theorem test_decode_and : decodeWord 0x8122 = .ok (.andVxVy 1 2) := by decide
theorem test_decode_xor : decodeWord 0x8123 = .ok (.xorVxVy 1 2) := by decide
theorem test_decode_add : decodeWord 0x8AB4 = .ok (.addVxVy 10 11) := by decide
theorem test_decode_sub : decodeWord 0x8F25 = .ok (.subVxVy 15 2) := by decide
theorem test_decode_shr : decodeWord 0x84F6 = .ok (.shrVx 4 15) := by decide
theorem test_decode_ldI : decodeWord 0xA2F0 = .ok (.ldINnn 0x2F0) := by decide
theorem test_decode_rnd : decodeWord 0xC30F = .ok (.rndVxKk 3 0x0F) := by decide
theorem test_decode_drw : decodeWord 0xD12F = .ok (.drw 1 2 15) := by decide
theorem test_decode_skp : decodeWord 0xE59E = .ok (.skp 5) := by decide
theorem test_decode_sknp : decodeWord 0xE5A1 = .ok (.sknp 5) := by decide
theorem test_decode_ldVxDt : decodeWord 0xF407 = .ok (.ldVxDt 4) := by decide
theorem test_decode_ldVxK : decodeWord 0xF30A = .ok (.ldVxK 3) := by decide
theorem test_decode_ldDtVx : decodeWord 0xF415 = .ok (.ldDtVx 4) := by decide
theorem test_decode_ldStVx : decodeWord 0xF218 = .ok (.ldStVx 2) := by decide
theorem test_decode_addI : decodeWord 0xF21E = .ok (.addIVx 2) := by decide
theorem test_decode_ldB : decodeWord 0xF333 = .ok (.ldBVx 3) := by decide
theorem test_decode_ldVxI : decodeWord 0xF265 = .ok (.ldVxI 2) := by decide

/-- DE13 to DE18: unhandled words are rejected, by name. -/
theorem test_decode_rejects :
    decodeWord 0x5120 = .error (.unhandledClass 5) ∧ decodeWord 0x9120 = .error (.unhandledClass 9) ∧
      decodeWord 0xB300 = .error (.unhandledClass 11) ∧ decodeWord 0x8121 = .error (.unhandledAlu 1) ∧
      decodeWord 0x8127 = .error (.unhandledAlu 7) ∧ decodeWord 0x812E = .error (.unhandledAlu 14) ∧
      decodeWord 0x8128 = .error (.unhandledAlu 8) ∧ decodeWord 0xE59F = .error (.unhandledKey 0x9F) ∧
      decodeWord 0xE5A0 = .error (.unhandledKey 0xA0) ∧ decodeWord 0xE500 = .error (.unhandledKey 0x00) ∧
      decodeWord 0xF229 = .error (.unhandledMisc 0x29) ∧ decodeWord 0xF255 = .error (.unhandledMisc 0x55) ∧
      decodeWord 0xF200 = .error (.unhandledMisc 0x00) ∧ decodeWord 0xF2FF = .error (.unhandledMisc 0xFF) := by
  decide

/-- R69, R90: two bytes, the first one high; one byte is no instruction. -/
theorem test_decodeBytes :
    decodeBytes [0x1A, 0xBC, 0x77] = .ok (.jp 0xABC, [0x77]) ∧ decodeBytes [0x1A] = .error .truncated ∧
      decodeBytes [] = .error .truncated := by decide

theorem test_encodeBytes : encodeBytes (.shrVx 4 15) = [0x84, 0xF6] ∧ encodeBytes (.sys 0x123) = [0x01, 0x23] := by
  decide

theorem test_decodeTableWord :
    decodeTableWord 16 0xD12F = some (.drw 1 2 15) ∧ decodeTableWord 16 0x5120 = none := by decide

/-! ### Control flow -/

/-- CF1. -/
theorem test_sys : view 0x0123 ready (fun t => (t.pc, t.sp)) = some (0x0202, 0) := by decide
/-- CF2. -/
theorem test_jp : view 0x1234 ready State.pc = some 0x0234 := by decide
/-- CF4. -/
theorem test_call : view 0x2300 ready (fun t => (t.sp, t.slot 0, t.pc)) = some (1, 0x0202, 0x0300) := by decide
/-- CF7: the seventeenth CALL. -/
theorem test_call_full :
    view 0x2300 { ready with sp := 16 } (fun t => (record t, t.sp, t.pc)) =
      some ((true, 2, 0x0200, 0x2300), 16, 0x0200) := by decide
/-- CF5. -/
theorem test_ret :
    view 0x00EE { ready with sp := 1, stack := ready.stack.set 0 0x0202, pc := 0x0300 }
      (fun t => (t.pc, t.sp, t.slot 0)) = some (0x0202, 0, 0x0202) := by decide
/-- CF6. -/
theorem test_ret_empty :
    view 0x00EE ready (fun t => (record t, t.sp, t.pc)) = some ((true, 3, 0x0200, 0x00EE), 0, 0x0200) := by decide
/-- CF10, CF11. -/
theorem test_se :
    view 0x332A (regs [(3, 0x2A)]) State.pc = some 0x0204 ∧ view 0x332A (regs [(3, 0x2B)]) State.pc = some 0x0202 := by
  decide
/-- CF12, CF13. -/
theorem test_sne :
    view 0x432A (regs [(3, 0x2A)]) State.pc = some 0x0202 ∧ view 0x432A ready State.pc = some 0x0204 := by decide
/-- CF16: a skip past the end of memory, and the fetch fault after it. -/
theorem test_fetch_fault_after_skip :
    (view 0x3000 { ready with pc := 0x0FFE } (fun t => (t.pc, t.fault, record (after t)))) =
      some (0x1002, false, (true, 4, 0x1002, 0x0000)) := by decide
/-- CF19: an odd PC is legal. -/
theorem test_odd_pc : view 0x602A { ready with pc := 0x0201 } (fun t => (t.reg 0, t.pc)) = some (0x2A, 0x0203) := by
  decide
/-- CF20. -/
theorem test_unhandled :
    view 0x5120 ready (fun t => (record t, t.pc)) = some ((true, 1, 0x0200, 0x5120), 0x0200) := by decide

/-! ### Registers, arithmetic, logic -/

/-- AL1. -/
theorem test_ldKk : view 0x6A7F ready (fun t => (t.reg 10, t.pc)) = some (0x7F, 0x0202) := by decide
/-- AL4: no carry is recorded. -/
theorem test_addKk_wraps : view 0x7101 (regs [(1, 0xFF)]) (fun t => (t.reg 1, t.reg VF)) = some (0x00, 0x00) := by
  decide
/-- AL5: VF is an ordinary register here. -/
theorem test_addKk_vf : view 0x7F03 (regs [(15, 0xFE)]) (fun t => t.reg VF) = some 0x01 := by decide
/-- AL6. -/
theorem test_ld : view 0x8120 (regs [(2, 0x55)]) (fun t => (t.reg 1, t.reg 2)) = some (0x55, 0x55) := by decide
/-- AL7. -/
theorem test_and :
    view 0x8122 (regs [(1, 0xCC), (2, 0xAA), (15, 7)]) (fun t => (t.reg 1, t.reg VF)) = some (0x88, 7) := by decide
/-- AL8. -/
theorem test_xor :
    view 0x8123 (regs [(1, 0xCC), (2, 0xAA), (15, 7)]) (fun t => (t.reg 1, t.reg VF)) = some (0x66, 7) := by decide
/-- AL10 (the source's example), AL13: a sum of exactly 255 is no carry. -/
theorem test_add :
    view 0x8124 (regs [(1, 0xFA), (2, 0x0A)]) (fun t => (t.reg 1, t.reg VF)) = some (0x04, 1) ∧
      view 0x8124 (regs [(1, 0xC8), (2, 0x37), (15, 1)]) (fun t => (t.reg 1, t.reg VF)) = some (0xFF, 0) := by decide
/-- AL15, AL16: VF as an operand. -/
theorem test_add_vf :
    view 0x8F24 (regs [(15, 0xC8), (2, 0x64)]) (fun t => t.reg VF) = some 0x2C ∧
      view 0x81F4 (regs [(1, 0xFF), (15, 0x01)]) (fun t => (t.reg 1, t.reg VF)) = some (0x00, 1) := by decide
/-- AL19 (the source's example), AL20: equal operands. -/
theorem test_sub :
    view 0x8125 (regs [(1, 0x03), (2, 0x05)]) (fun t => (t.reg 1, t.reg VF)) = some (0xFE, 0) ∧
      view 0x8125 (regs [(1, 0x07), (2, 0x07), (15, 1)]) (fun t => (t.reg 1, t.reg VF)) = some (0x00, 0) := by decide
/-- AL24, AL26: VF as an operand. -/
theorem test_sub_vf :
    view 0x8F25 (regs [(15, 0x05), (2, 0x03)]) (fun t => t.reg VF) = some 0x02 ∧
      view 0x81F5 (regs [(1, 0x01), (15, 0x01)]) (fun t => (t.reg 1, t.reg VF)) = some (0x00, 0) := by decide
/-- AL32, AL30: y is ignored; the shift is logical. -/
theorem test_shr :
    view 0x8476 (regs [(4, 0xB5), (7, 2)]) (fun t => (t.reg 4, t.reg VF, t.reg 7)) = some (0x5A, 1, 2) ∧
      view 0x8406 (regs [(4, 0x80), (15, 1)]) (fun t => (t.reg 4, t.reg VF)) = some (0x40, 0) := by decide
/-- AL33. -/
theorem test_shr_vf : view 0x8F06 (regs [(15, 0x07)]) (fun t => t.reg VF) = some 0x03 := by decide
/-- U6's table: the values of the sequential reading (AL24, AL26, AL33). -/
theorem test_sequential_reading :
    (match execSubVxVyWith .sequential 15 2 (regs [(15, 0x05), (2, 0x03)]) with
      | .next t => some (t.reg VF) | _ => none) = some 0xFE ∧
    (match execSubVxVyWith .sequential 1 15 (regs [(1, 0x01), (15, 0x01)]) with
      | .next t => some (t.reg 1) | _ => none) = some 0x01 ∧
    (match execShrVxWith .sequential 15 (regs [(15, 0x07)]) with
      | .next t => some (t.reg VF) | _ => none) = some 0x00 := by decide
/-- AI1. -/
theorem test_ldI : view 0xA2F0 ready State.i = some 0x02F0 := by decide
/-- AI2, AI3: no mask to 12 bits; a wrap at 16 bits. -/
theorem test_addI :
    view 0xF21E { regs [(2, 0x01)] with i := 0x0FFF } (fun t => (t.i, t.reg VF)) = some (0x1000, 0) ∧
      view 0xF21E { regs [(2, 0x02)] with i := 0xFFFF } (fun t => (t.i, t.reg VF)) = some (0x0001, 0) := by decide
/-- RN2: with an empty mask every draw gives 0. -/
theorem test_rnd_mask :
    ∃ t, exec (.rndVxKk 3 0x00) ready = .next t ∧ t.reg 3 = 0#8 ∧ t.pc = 0x0202#16 :=
  ⟨_, exec_rndVxKk 3 0x00 ready, by simp [State.advance, State.setPc, State.reg, State.setReg], rfl⟩

/-! ### Display -/

/-- DC1: CLS clears a cell that was 1, and leaves VF. -/
theorem test_cls :
    view 0x00E0 { regs [(15, 1)] with disp := Display.clear.toggle 31 63 } (fun t => (t.disp.cell 31 63, t.reg VF)) =
      some (false, 1) := by decide
/-- DR2: the placement past the right edge (X0 = 62). -/
theorem test_drw_wrap :
    view 0xD011 (atI (regs [(0, 62), (1, 5)]) 0x300 [0xA5]) (fun t => (rowCells 5 t, t.reg VF)) =
      some ([0, 3, 5, 62], 0) := by decide
/-- DR6: both edges; the six pixels past the corner are lost. -/
theorem test_drw_corner :
    view 0xD012 (atI (regs [(0, 62), (1, 31)]) 0x300 [0xFF, 0xFF]) (fun t => (rowCells 31 t, rowCells 0 t, t.reg VF)) =
      some ([0, 1, 2, 3, 4, 5, 62, 63], [62, 63], 0) := by decide
/-- DR10: a collision. -/
theorem test_drw_collision :
    view 0xD011 { atI (regs [(0, 2)]) 0x300 [0xF0] with
        disp := (((Display.clear.toggle 0 0).toggle 0 1).toggle 0 2).toggle 0 3 } (fun t => (rowCells 0 t, t.reg VF)) =
      some ([0, 1, 4, 5], 1) := by decide
/-- DR13, DR14: the last legal sprite address and the first that faults. -/
theorem test_drw_range :
    view 0xD013 { ready with i := 0x0FFE } (fun t => (record t, t.pc)) = some ((true, 4, 0x0200, 0xD013), 0x0200) ∧
      view 0xD003 (atI ready 0x0FFD [0x80, 0x80, 0x80]) (fun t => (rowCells 2 t, t.fault)) = some ([0], false) := by
  decide
/-- DR12: no rows, and I out of range. -/
theorem test_drw_no_rows :
    view 0xD010 { regs [(15, 1)] with i := 0xFFFF } (fun t => (t.fault, t.reg VF, t.pc)) = some (false, 0, 0x0202) := by
  decide

/-! ### Keypad and timers -/

/-- KP1, KP2. -/
theorem test_skp :
    view 0xE59E { regs [(5, 0x0A)] with keys := 0x0400 } State.pc = some 0x0204 ∧
      view 0xE59E { regs [(5, 0x0A)] with keys := 0xFBFF } State.pc = some 0x0202 := by decide
/-- KP8. -/
theorem test_skp_range :
    view 0xE59E (regs [(5, 0x10)]) (fun t => (record t, t.pc)) = some ((true, 5, 0x0200, 0xE59E), 0x0200) := by decide
/-- KP3, KP4. -/
theorem test_sknp :
    view 0xE5A1 { regs [(5, 0x0A)] with keys := 0x0400 } State.pc = some 0x0202 ∧
      view 0xE5A1 { regs [(5, 0x0A)] with keys := 0xFBFF } State.pc = some 0x0204 := by decide
/-- KP5. -/
theorem test_ldVxK_waits : view 0xF30A ready (fun t => (t.pc, t.reg 3)) = some (0x0200, 0) := by decide
/-- KP6: key 7 alone. -/
theorem test_ldVxK_loads :
    ∃ t, exec (.ldVxK 3) { ready with keys := 0x0080 } = .next t ∧ t.reg 3 = 0x07#8 ∧ t.pc = 0x0202#16 := by
  refine ⟨_, exec_ldVxK_load 3 _ (by decide), ?_, rfl⟩
  have h : keySelect (0x0080#16) = 7 := by
    have hp : pressedKeys (0x0080#16) = [7] := by decide
    simp [keySelect, hp, Nat.mod_one]
  simp [State.advance, State.setPc, State.reg, State.setReg, h]
/-- TM7. -/
theorem test_ldVxDt : view 0xF407 { ready with dt := 0x3C } (fun t => t.reg 4) = some 0x3C := by decide
/-- TM6. -/
theorem test_ldDtVx : view 0xF415 (regs [(4, 0x3C)]) (fun t => (t.dt, t.st)) = some (0x3C, 0) := by decide
/-- TM5: ST = 2 at once, then 1, 0, 0 by ticks, and SND with it. -/
theorem test_ldStVx :
    view 0xF218 (regs [(2, 2)]) (fun t => (t.st, t.snd, (timerTick t).snd, (timerTick (timerTick t)).snd)) =
      some (2, true, true, false) := by decide
/-- TM1, TM2. -/
theorem test_tick :
    (after { ready with turns := [.tick], dt := 3, st := 1 }).dt = 2 ∧
      (after { ready with turns := [.tick], dt := 3, st := 1 }).st = 0 ∧
      (after { ready with turns := [.tick] }).dt = 0 := by decide
/-- TM9, TM10. -/
theorem test_tick_after_fault :
    (after { ready with turns := [.tick], dt := 2, fault := true }).dt = 1 ∧
      (after { State.reset with turns := [.tick], dt := 2 }).dt = 2 := by decide

/-! ### Memory instructions -/

/-- MB1 (the source's example), MB4. -/
theorem test_ldB :
    view 0xF333 { regs [(3, 254)] with i := 0x300 } (fun t => [t.readByte 0x300, t.readByte 0x301, t.readByte 0x302]) =
      some [2, 25, 4] ∧
    view 0xF333 { regs [(3, 99)] with i := 0x300 } (fun t => [t.readByte 0x300, t.readByte 0x301, t.readByte 0x302]) =
      some [0, 9, 9] := by decide
/-- MB7, MB8: the last legal I, and no partial store. -/
theorem test_ldB_range :
    view 0xF333 { regs [(3, 123)] with i := 0x0FFD } (fun t => (t.fault, t.readByte 0xFFF)) = some (false, 3) ∧
      view 0xF333 { regs [(3, 123)] with i := 0x0FFE } (fun t => (record t, t.readByte 0xFFE)) =
        some ((true, 4, 0x0200, 0xF333), 0) := by decide
/-- ML1. -/
theorem test_ldVxI :
    view 0xF265 (atI (regs [(3, 9)]) 0x300 [2, 0x19, 4, 5]) (fun t => ([t.reg 0, t.reg 1, t.reg 2, t.reg 3], t.i)) =
      some ([2, 0x19, 4, 9], 0x300) := by decide
/-- ML4, ML5. -/
theorem test_ldVxI_range :
    view 0xFF65 (atI ready 0x0FF0 [1]) (fun t => (t.fault, t.reg 0)) = some (false, 1) ∧
      view 0xFF65 { ready with i := 0x0FF1 } record = some (true, 4, 0x0200, 0xFF65) := by decide

/-! ### The host, reset and running from reset -/

/-- RS1 and RS4's way in: from reset, Init, Start and one CPU step of JP 0x234. -/
theorem test_run_from_reset :
    (match core.run 3 { State.reset with turns := [.host (.init [0x12, 0x34]), .host .start] } with
      | .next t => some (t.pc, t.readByte 0x200, t.readByte 0x201, t.readByte 0x202) | _ => none) =
      some (0x0234, 0x12, 0x34, 0x00) := by decide
/-- Keys are levels. -/
theorem test_keys :
    (after { ready with turns := [.host (.keyDown 15)] }).keys = 0x8000 ∧
      (after { ready with turns := [.host (.keyUp 0)], keys := 0xFFFF }).keys = 0xFFFE := by decide
/-- RS6, RS7: Abort, then Init of a faulted machine. -/
theorem test_abort_then_init :
    (match core.run 2 { ready with turns := [.host .abort, .host (.init [])], fault := true, fcode := 4 } with
      | .next t => some (record t, t.run, t.aborted) | _ => none) =
      some ((false, 0, 0x0000, 0x0000), false, false) := by decide

/-! ### Witnesses: the hypotheses of each obligation that has some can be met, at the ends of their ranges -/

/-- `ready` with a word at PC. -/
def loaded (pc : Word) (first second : Byte) : State :=
  { ready with pc := pc, mem := Memory.writeBytes [] pc.toNat [first, second] }

/-- A faulted machine that still runs. -/
def faulted : State := { ready with fault := true, fcode := 3, fpc := 0x0200, fiw := 0x00EE }

/-- The state with one agent's turn next. -/
def turn (a : Turn) (s : State) : State := { s with turns := [a] }

/-- `ready` with `n` return addresses held. -/
def depth (n : Fin 17) : State := { ready with sp := n }

theorem ready_cpuReady : ready.CpuReady := ⟨rfl, rfl, rfl⟩

theorem witness_DecodeOfEncodeIsIdentity :
    Instr.wf (.sys 0x0DF) = true ∧ Instr.wf (.sys 0x0E1) = true ∧ Instr.wf (.drw 15 15 15) = true := by decide

theorem witness_EncodeOfDecodeIsIdentity : decodeWord 0x00E1 = .ok (.sys 0x0E1) ∧ decodeWord 0xFF65 = .ok (.ldVxI 15) := by
  decide

theorem witness_UnhandledWordsAreExactlyTheColumn :
    UnhandledWord 0x5000 ∧ UnhandledWord 0x9FFF ∧ UnhandledWord 0xB000 ∧ UnhandledWord 0x8AB7 ∧
      UnhandledWord 0xE1A2 ∧ UnhandledWord 0xFF64 ∧ ¬ UnhandledWord 0xFF65 := by
  refine ⟨?_, ?_, ?_, ?_, ?_, ?_, ?_⟩ <;> unfold UnhandledWord <;> decide

theorem witness_StepRunsTheDecodedInstruction :
    (loaded 0x0FFE 0xF2 0x65).CpuReady ∧ (loaded 0x0FFE 0xF2 0x65).pc.toNat ≤ 4094 ∧
      decodeWord (BitVec.ofNat 16 (((loaded 0x0FFE 0xF2 0x65).readByte 4094).toNat * 256 +
        ((loaded 0x0FFE 0xF2 0x65).readByte 4095).toNat)) = .ok (.ldVxI 2) :=
  ⟨⟨rfl, rfl, rfl⟩, by decide, by decide⟩

theorem witness_FetchOutsideMemoryRaisesMemRange :
    ({ ready with pc := 0x0FFF } : State).CpuReady ∧ ({ ready with pc := 0x0FFF } : State).pc.toNat ≥ 4095 :=
  ⟨⟨rfl, rfl, rfl⟩, by decide⟩

theorem witness_UnhandledWordStepLatchesTheRecord :
    (loaded 0x0FFE 0x51 0x20).CpuReady ∧ (loaded 0x0FFE 0x51 0x20).pc.toNat ≤ 4094 ∧
      (0x5120#16 = BitVec.ofNat 16 (((loaded 0x0FFE 0x51 0x20).readByte 4094).toNat * 256 +
        ((loaded 0x0FFE 0x51 0x20).readByte 4095).toNat)) ∧ UnhandledWord 0x5120 :=
  ⟨⟨rfl, rfl, rfl⟩, by decide, by decide, by unfold UnhandledWord; decide⟩

/-- A fault at execution (RET on an empty stack), one at decode and one at fetch. -/
theorem witness_FaultsArePrecise :
    ((loaded 0x0200 0x00 0xEE).fault = false ∧ step (loaded 0x0200 0x00 0xEE) = .next (after (loaded 0x0200 0x00 0xEE)) ∧
      (after (loaded 0x0200 0x00 0xEE)).fault = true) ∧
    ((loaded 0x0200 0x51 0x20).fault = false ∧ step (loaded 0x0200 0x51 0x20) = .next (after (loaded 0x0200 0x51 0x20)) ∧
      (after (loaded 0x0200 0x51 0x20)).fault = true) ∧
    (({ ready with pc := 0x1000 } : State).fault = false ∧
      step { ready with pc := 0x1000 } = .next (after { ready with pc := 0x1000 }) ∧
      (after { ready with pc := 0x1000 }).fault = true) :=
  ⟨⟨rfl, rfl, rfl⟩, ⟨rfl, rfl, rfl⟩, ⟨rfl, rfl, rfl⟩⟩

/-- The CPU's turn, a tick, a key, an abort, and Init once RUN = 0. -/
theorem witness_FaultRecordIsSticky :
    (faulted.fault = true ∧ step faulted = .next (after faulted)) ∧
    step (turn .tick faulted) = .next (after (turn .tick faulted)) ∧
    step (turn (.host (.keyDown 3)) faulted) = .next (after (turn (.host (.keyDown 3)) faulted)) ∧
    step (turn (.host .abort) faulted) = .next (after (turn (.host .abort) faulted)) ∧
    step (turn (.host (.init [])) { faulted with run := false }) =
      .next (after (turn (.host (.init [])) { faulted with run := false })) :=
  ⟨⟨rfl, rfl⟩, rfl, rfl, rfl, rfl⟩

theorem witness_DisabledAgentsChangeNothing :
    (State.reset.run = false ∧ State.reset.nextTurn = .cpu) ∧ (faulted.fault = true ∧ faulted.nextTurn = .cpu) ∧
      ((turn .tick State.reset).run = false ∧ (turn .tick State.reset).nextTurn = .tick) := by decide

/-- Each cause of the table at the first value that faults, and the last that does not. -/
theorem witness_ExecFaultsExactlyAsTabled :
    ready.fault = false ∧
    faultCause (depth 16) (.call 0x300) = some .stackOverflow ∧ faultCause (depth 15) (.call 0x300) = none ∧
    faultCause (depth 0) .ret = some .stackUnderflow ∧ faultCause (depth 1) .ret = none ∧
    faultCause { ready with i := 0x0FFF } (.drw 0 1 2) = some .memRange ∧
    faultCause { ready with i := 0x0FFF } (.drw 0 1 1) = none ∧
    faultCause { ready with i := 0xFFFF } (.drw 0 1 0) = none ∧
    faultCause { ready with i := 0x0FFE } (.ldBVx 3) = some .memRange ∧
    faultCause { ready with i := 0x0FFD } (.ldBVx 3) = none ∧
    faultCause { ready with i := 0x0FF1 } (.ldVxI 15) = some .memRange ∧
    faultCause { ready with i := 0x0FF0 } (.ldVxI 15) = none ∧
    faultCause (regs [(5, 16)]) (.skp 5) = some .keyIndex ∧ faultCause (regs [(5, 15)]) (.skp 5) = none ∧
    faultCause (regs [(5, 255)]) (.sknp 5) = some .keyIndex ∧ faultCause (regs [(5, 15)]) (.sknp 5) = none := by
  decide

theorem witness_PcFollowsTheTable :
    (ready.fault = false ∧ exec (.jp 0xFFF) ready = .next (afterExec (.jp 0xFFF) ready) ∧
      (afterExec (.jp 0xFFF) ready).fault = false) ∧
    (exec .ret ready = .next (afterExec .ret ready) ∧ (afterExec .ret ready).fault = true) ∧
    (exec .ret (depth 16) = .next (afterExec .ret (depth 16)) ∧ (afterExec .ret (depth 16)).fault = false) :=
  ⟨⟨rfl, rfl, rfl⟩, ⟨rfl, rfl⟩, ⟨rfl, rfl⟩⟩

theorem witness_SysDoesNothing : (0x0E1#12 ≠ 0x0E0#12 ∧ 0x0E1#12 ≠ 0x0EE#12) ∧ (0xFFF#12 ≠ 0x0E0#12 ∧ 0xFFF#12 ≠ 0x0EE#12) := by
  decide

theorem witness_RetPopsTheReturnAddress :
    (depth 1).sp.val = (0 : Fin 16).val + 1 ∧ (depth 16).sp.val = (15 : Fin 16).val + 1 ∧ (depth 0).sp.val = 0 := by
  decide

theorem witness_CallPushesNextPc :
    (depth 0).sp.val = (0 : Fin 16).val ∧ (depth 15).sp.val = (15 : Fin 16).val ∧ (depth 16).sp.val = 16 := by decide

theorem witness_CallThenRetResumesAfterTheCall : (depth 15).sp.val < 16 ∧ (2 : Fin 16).val ≠ (depth 15).sp.val := by
  decide

theorem witness_AddSetsCarry : (1 : Reg) ≠ VF ∧ (14 : Reg) ≠ VF ∧ (3 : Reg) ≠ 1 ∧ (3 : Reg) ≠ VF := by decide

theorem witness_SubSetsNotBorrow : (0 : Reg) ≠ VF ∧ (14 : Reg) ≠ VF ∧ (3 : Reg) ≠ 14 ∧ (3 : Reg) ≠ VF := by decide

theorem witness_ShrShiftsOutIntoVf : (4 : Reg) ≠ VF ∧ (14 : Reg) ≠ VF ∧ (3 : Reg) ≠ 4 ∧ (3 : Reg) ≠ VF := by decide

theorem witness_VfAliasReadingsDifferInThreeCases :
    ((15 : Reg) = VF ↔ (15 : Reg) = VF) ∧ ((1 : Reg) = VF ↔ (2 : Reg) = VF) ∧ (14 : Reg) ≠ VF ∧
      ((15 : Reg) = VF ∧ (2 : Reg) ≠ VF) ∧ ((1 : Reg) ≠ VF ∧ (15 : Reg) = VF) := by decide

theorem witness_RndMasksADraw : (2 : Reg) ≠ 3 := by decide

/-- The last legal sprite (15 rows at 4081), and no rows with I out of range. -/
theorem witness_DrwTogglesExactlyTheSpriteCells :
    ((15 : Rows).val = 0 ∨ ({ ready with i := 0x0FF1 } : State).i.toNat + (15 : Rows).val ≤ 4096) ∧
      ((0 : Rows).val = 0 ∨ ({ ready with i := 0xFFFF } : State).i.toNat + (0 : Rows).val ≤ 4096) := by decide

theorem witness_DrwTwiceRestoresTheDisplay :
    (((15 : Rows).val = 0 ∨ ({ ready with i := 0x0FF1 } : State).i.toNat + (15 : Rows).val ≤ 4096) ∧
      (0 : Reg) ≠ VF ∧ (14 : Reg) ≠ VF) ∧
    ((0 : Rows).val = 0 ∨ ({ ready with i := 0xFFFF } : State).i.toNat + (0 : Rows).val ≤ 4096) := by decide

/-- R172: two equal DRWs over a cell that was 1 give VF = 1 and then VF = 0 (log 28), and with x = F the second DRW
draws at the column that the first one's VF gives. -/
theorem test_drw_twice :
    (afterExec (.drw 0 1 1) { atI ready 0x300 [0x80] with disp := Display.clear.toggle 0 0 }).reg VF = 1 ∧
    (afterExec (.drw 0 1 1) (afterExec (.drw 0 1 1)
      { atI ready 0x300 [0x80] with disp := Display.clear.toggle 0 0 })).reg VF = 0 ∧
    rowCells 0 (afterExec (.drw 15 1 1) (afterExec (.drw 15 1 1) (atI (regs [(15, 5)]) 0x300 [0x80]))) = [0, 5] := by
  decide

theorem witness_DrwRangeFaultAndNoRows :
    (0 < (15 : Rows).val ∧ ({ ready with i := 0x0FF2 } : State).i.toNat + (15 : Rows).val - 1 > 4095) ∧
      (0 < (1 : Rows).val ∧ ({ ready with i := 0x1000 } : State).i.toNat + (1 : Rows).val - 1 > 4095) ∧
      (0 : Rows).val = 0 := by decide

/-- The smallest overflow of both edges, and each edge alone at its limit. -/
theorem witness_DrwCornerSettings :
    (((regs [(0, 57), (1, 31)]).reg 1).toNat % 32 + (2 : Rows).val > 32 ∧ ((regs [(0, 57), (1, 31)]).reg 0).toNat % 64 > 56) ∧
      ¬ (((regs [(0, 56), (1, 31)]).reg 1).toNat % 32 + (2 : Rows).val > 32 ∧
        ((regs [(0, 56), (1, 31)]).reg 0).toNat % 64 > 56) ∧
      ¬ (((regs [(0, 57), (1, 31)]).reg 1).toNat % 32 + (1 : Rows).val > 32 ∧
        ((regs [(0, 57), (1, 31)]).reg 0).toNat % 64 > 56) := by decide

theorem witness_SkpAndSknpTestTheKey :
    ((regs [(5, 0)]).reg 5).toNat = (0 : Key).val ∧ ((regs [(5, 15)]).reg 5).toNat = (15 : Key).val ∧
      ((regs [(5, 16)]).reg 5).toNat > 15 := by decide

/-- No key, one key, and two keys. -/
theorem witness_LdKeyWaitsOrLoadsAPressedKey :
    (∀ k, ready.key k = false) ∧
    (({ ready with keys := 0x8000 } : State).key 15 = true ∧
      ∀ j, ({ ready with keys := 0x8000 } : State).key j = true → j = 15) ∧
    (({ ready with keys := 0x0081 } : State).key 0 = true ∧ ({ ready with keys := 0x0081 } : State).key 7 = true) := by
  decide

theorem witness_TickLowersBothTimers :
    (turn .tick ready).nextTurn = .tick ∧ (turn .tick ready).run = true ∧
      (turn .tick { faulted with dt := 255 }).nextTurn = .tick ∧ (turn .tick { faulted with dt := 255 }).run = true := by
  decide

theorem witness_TicksCountDownToZero :
    ({ faulted with dt := 3, turns := [.tick, .tick, .host .abort] } : State).run = true ∧
      ({ faulted with dt := 3, turns := [.tick, .tick, .host .abort] } : State).turns =
        List.replicate 2 Turn.tick ++ [.host .abort] := by decide

/-- A start by LD ST,V2, a stop by it, and a stop by a tick. -/
theorem witness_SoundEdgesHaveTheirCauses :
    ((∀ rom, ((loaded 0x0200 0xF2 0x18).setReg 2 1).nextTurn ≠ .host (.init rom)) ∧
      step ((loaded 0x0200 0xF2 0x18).setReg 2 1) = .next (after ((loaded 0x0200 0xF2 0x18).setReg 2 1)) ∧
      soundStarts ((loaded 0x0200 0xF2 0x18).setReg 2 1) (after ((loaded 0x0200 0xF2 0x18).setReg 2 1)) = true) ∧
    (step { loaded 0x0200 0xF2 0x18 with st := 7 } = .next (after { loaded 0x0200 0xF2 0x18 with st := 7 }) ∧
      soundStops { loaded 0x0200 0xF2 0x18 with st := 7 } (after { loaded 0x0200 0xF2 0x18 with st := 7 }) = true) ∧
    ((∀ rom, (turn .tick { ready with st := 1 }).nextTurn ≠ .host (.init rom)) ∧
      step (turn .tick { ready with st := 1 }) = .next (after (turn .tick { ready with st := 1 })) ∧
      soundStops (turn .tick { ready with st := 1 }) (after (turn .tick { ready with st := 1 })) = true) :=
  ⟨⟨fun _ => nofun, rfl, rfl⟩, ⟨rfl, rfl⟩, ⟨fun _ => nofun, rfl, rfl⟩⟩

theorem witness_LdBStoresTheThreeBytes :
    ready.mem.wf ∧ (loaded 0x0FFD 1 2).mem.wf ∧ ({ ready with i := 0x0FFD } : State).i.toNat + 2 ≤ 4095 ∧
      ({ ready with i := 0x0FFE } : State).i.toNat + 2 > 4095 ∧ (4092 < ({ ready with i := 0x0FFD } : State).i.toNat) := by
  decide

theorem witness_LdVxILoadsTheRegisters :
    ({ ready with i := 0x0FF0 } : State).i.toNat + (15 : Reg).val ≤ 4095 ∧
      ({ ready with i := 0x0FF1 } : State).i.toNat + (15 : Reg).val > 4095 ∧
      ({ ready with i := 0x0FFF } : State).i.toNat + (0 : Reg).val ≤ 4095 ∧
      ({ ready with i := 0x1000 } : State).i.toNat + (0 : Reg).val > 4095 := by decide

theorem witness_StoresAreSeenByFetch :
    (loaded 0x0FFD 1 2).mem.wf ∧ ({ loaded 0x0FFD 1 2 with i := 0x0FFD } : State).i.toNat + 2 ≤ 4095 := by decide

/-- Each part of the state is changed by an instruction that may. -/
theorem witness_InstructionsWriteOnlyTheirState :
    (exec (.ldINnn 1) ready = .next (afterExec (.ldINnn 1) ready) ∧ (afterExec (.ldINnn 1) ready).i ≠ ready.i) ∧
    (exec (.call 1) ready = .next (afterExec (.call 1) ready) ∧ (afterExec (.call 1) ready).slot 0 ≠ ready.slot 0 ∧
      (afterExec (.call 1) ready).sp ≠ ready.sp) ∧
    (exec (.ldDtVx 1) (regs [(1, 9)]) = .next (afterExec (.ldDtVx 1) (regs [(1, 9)])) ∧
      (afterExec (.ldDtVx 1) (regs [(1, 9)])).dt ≠ (regs [(1, 9)]).dt) ∧
    (exec (.ldStVx 1) (regs [(1, 9)]) = .next (afterExec (.ldStVx 1) (regs [(1, 9)])) ∧
      (afterExec (.ldStVx 1) (regs [(1, 9)])).st ≠ (regs [(1, 9)]).st) ∧
    (exec (.ldBVx 1) (regs [(1, 9)]) = .next (afterExec (.ldBVx 1) (regs [(1, 9)])) ∧
      (afterExec (.ldBVx 1) (regs [(1, 9)])).mem ≠ (regs [(1, 9)]).mem) ∧
    (exec (.drw 0 0 1) (atI ready 0x300 [0x80]) = .next (afterExec (.drw 0 0 1) (atI ready 0x300 [0x80])) ∧
      (afterExec (.drw 0 0 1) (atI ready 0x300 [0x80])).disp.cell 0 0 ≠ (atI ready 0x300 [0x80]).disp.cell 0 0) ∧
    (exec (.rndVxKk 1 0xFF) ready = .next (afterExec (.rndVxKk 1 0xFF) ready) ∧
      (afterExec (.rndVxKk 1 0xFF) ready).draws ≠ ready.draws) :=
  ⟨⟨rfl, by decide⟩, ⟨rfl, by decide, by decide⟩, ⟨rfl, by decide⟩, ⟨rfl, by decide⟩, ⟨rfl, by decide⟩,
    ⟨rfl, by decide⟩, ⟨rfl, by decide⟩⟩

theorem witness_RegistersFollowTheAccessTable :
    (exec (.addVxVy 1 2) (regs [(1, 255), (2, 1)]) = .next (afterExec (.addVxVy 1 2) (regs [(1, 255), (2, 1)])) ∧
      (afterExec (.addVxVy 1 2) (regs [(1, 255), (2, 1)])).reg VF ≠ (regs [(1, 255), (2, 1)]).reg VF) ∧
    (¬ MayWriteReg 3 (.addVxVy 1 2) ∧ ¬ ReadsReg 3 (.addVxVy 1 2)) ∧
    (¬ MayWriteReg 2 (.shrVx 1 2) ∧ ¬ ReadsReg 2 (.shrVx 1 2)) := by
  refine ⟨⟨rfl, by decide⟩, ?_, ?_⟩ <;> simp only [MayWriteReg, ReadsReg] <;> decide

theorem witness_InstructionsReadOnlyTheirInputs :
    accessesMemory (.seVxKk 0 0) = false ∧ accessesMemory .cls = false ∧ readsKeys (.ldBVx 3) = false := by decide

theorem witness_TicksCommuteWithTimerlessInstructions :
    usesTimers (.drw 0 1 5) = false ∧ usesTimers (.ldVxK 3) = false := by decide

/-- A step of each agent, and Init. -/
theorem witness_AgentsWriteOnlyTheirState :
    step ready = .next (after ready) ∧ step (turn .tick ready) = .next (after (turn .tick ready)) ∧
      step (turn (.host (.keyUp 0)) ready) = .next (after (turn (.host (.keyUp 0)) ready)) ∧
      step (turn (.host (.init [1])) State.reset) = .next (after (turn (.host (.init [1])) State.reset)) :=
  ⟨rfl, rfl, rfl, rfl⟩

theorem witness_KeyMovesSetOneKey :
    (turn (.host (.keyDown 15)) ready).nextTurn = .host (.keyDown 15) ∧
      (turn (.host (.keyUp 0)) ready).nextTurn = .host (.keyUp 0) ∧
      (step (turn .tick ready) = .next (after (turn .tick ready)) ∧
        ∀ j, (turn .tick ready).nextTurn ≠ .host (.keyDown j) ∧ (turn .tick ready).nextTurn ≠ .host (.keyUp j)) :=
  ⟨rfl, rfl, rfl, fun _ => ⟨nofun, nofun⟩⟩

/-- The empty image and the longest one. -/
theorem witness_InitLoadsTheImageAndResets :
    (turn (.host (.init [])) State.reset).nextTurn = .host (.init []) ∧ ([] : List Byte).length ≤ 3584 ∧
      (turn (.host (.init (List.replicate 3584 1))) State.reset).nextTurn = .host (.init (List.replicate 3584 1)) ∧
      (turn (.host (.init (List.replicate 3584 1))) State.reset).run = false ∧
      (List.replicate 3584 (1 : Byte)).length ≤ 3584 :=
  ⟨rfl, by decide, rfl, rfl, by rw [List.length_replicate]⟩

theorem witness_ExcludedHostMovesStop :
    ((turn (.host (.init (List.replicate 3585 1))) State.reset).nextTurn = .host (.init (List.replicate 3585 1)) ∧
      (turn (.host (.init (List.replicate 3585 1))) State.reset).run = false ∧
      (List.replicate 3585 (1 : Byte)).length > 3584) ∧
    ((turn (.host (.init [])) ready).nextTurn = .host (.init []) ∧ (turn (.host (.init [])) ready).run = true) ∧
    ((turn (.host .start) ready).nextTurn = .host .start ∧ (turn (.host .start) ready).run = true) ∧
    ((turn (.host .start) { State.reset with aborted := true }).nextTurn = .host .start ∧
      (turn (.host .start) { State.reset with aborted := true }).aborted = true) ∧
    ((turn (.host .abort) State.reset).nextTurn = .host .abort ∧ (turn (.host .abort) State.reset).run = false) :=
  ⟨⟨rfl, rfl, by rw [List.length_replicate]; decide⟩, ⟨rfl, rfl⟩, ⟨rfl, rfl⟩, ⟨rfl, rfl⟩, ⟨rfl, rfl⟩⟩

theorem witness_StartAndAbortSetRun :
    ((turn (.host .start) State.reset).nextTurn = .host .start ∧ (turn (.host .start) State.reset).run = false ∧
      (turn (.host .start) State.reset).aborted = false) ∧
    ((turn (.host .abort) faulted).nextTurn = .host .abort ∧ (turn (.host .abort) faulted).run = true) :=
  ⟨⟨rfl, rfl, rfl⟩, ⟨rfl, rfl⟩⟩

theorem witness_ReadMovesReturnTheState :
    (turn (.host .readDisplay) ready).nextTurn = .host .readDisplay ∧
      (turn (.host .readTimers) ready).nextTurn = .host .readTimers ∧
      (turn (.host .readFault) faulted).nextTurn = .host .readFault ∧ ready.fault = false ∧ faulted.fault = true :=
  ⟨rfl, rfl, rfl, rfl, rfl⟩

/-- A running machine with memory listed, and a faulted one, meet the invariant and step. -/
theorem witness_StepKeepsTheInvariant :
    ((loaded 0x0200 0x12 0x34).Inv ∧ step (loaded 0x0200 0x12 0x34) = .next (after (loaded 0x0200 0x12 0x34))) ∧
      (faulted.Inv ∧ step faulted = .next (after faulted)) := by
  refine ⟨⟨?_, rfl⟩, ?_, rfl⟩ <;> unfold State.Inv State.RecordWf <;> decide

/-- The largest PC of the bound, and the largest return address. -/
theorem witness_StepKeepsThePcBound :
    (({ depth 16 with pc := 0x1002, stack := Vector.replicate 16 0x1000 } : State).PcBounded) ∧
      step { depth 16 with pc := 0x1002, stack := Vector.replicate 16 0x1000 } =
        .next (after { depth 16 with pc := 0x1002, stack := Vector.replicate 16 0x1000 }) := by
  refine ⟨?_, rfl⟩
  unfold State.PcBounded
  decide

/-- A faulted machine with DT = 1: CPU and TIMER take turns, the first tick lowers DT to 0, and nothing changes after. -/
def runDown (n : Nat) : State := { faulted with dt := if n < 2 then 1 else 0 }

theorem runDown_execution : IsExecution alternating runDown := by
  intro n
  by_cases h : n % 2 = 0
  · have e : (n + 1 < 2) = (n < 2) := by apply propext; omega
    simp only [alternating, if_pos h, runDown, e]
    rfl
  · have e : ¬ n + 1 < 2 := by omega
    simp only [alternating, if_neg h, runDown, if_neg e]
    by_cases h' : n < 2
    · simp only [if_pos h']; rfl
    · simp only [if_neg h']; rfl

theorem witness_FiniteSchedulesGiveEveryInterleaving : IsExecution alternating runDown := runDown_execution

theorem witness_TimersRunDownInFairExecutions :
    IsExecution alternating runDown ∧ WeaklyFair alternating runDown ∧ (∀ n, (runDown n).run = true) ∧
      (∀ n x, ¬ Executes (alternating n) (runDown n) (.ldDtVx x)) ∧
      (∀ n x, ¬ Executes (alternating n) (runDown n) (.ldStVx x)) :=
  ⟨runDown_execution, alternating_fair _, fun _ => rfl, fun _ _ h => Bool.false_ne_true h.2.1,
    fun _ _ h => Bool.false_ne_true h.2.1⟩

/-- LD V3,K at 0x200 and a JP to itself at 0x202, with key 7 down. -/
def waiting : State := { ready with keys := 0x0080, mem := Memory.writeBytes [] 0x200 [0xF3, 0x0A, 0x12, 0x02] }

/-- The state after the load: it stays so. -/
def waited : State := { waiting with v := waiting.v.set 3 0x07, pc := 0x0202 }

theorem waiting_execution : IsExecution alternating (fun n => if n = 0 then waiting else waited) := by
  have hk : keySelect (0x0080#16) = 7 := by
    have hp : pressedKeys (0x0080#16) = [7] := by decide
    simp [keySelect, hp, Nat.mod_one]
  intro n
  by_cases h0 : n = 0
  · subst h0
    have e : cpuStep waiting = exec (.ldVxK 3) waiting := rfl
    have hk' : keySelect waiting.keys = 7 := hk
    change cpuStep waiting = .next waited
    rw [e, exec_ldVxK_load 3 waiting (by decide), hk']
    rfl
  · simp only [if_neg h0, Nat.succ_ne_zero, if_false]
    unfold alternating
    split <;> rfl

theorem witness_KeyWaitEndsInFairExecutions :
    IsExecution alternating (fun n => if n = 0 then waiting else waited) ∧
      WeaklyFair alternating (fun n => if n = 0 then waiting else waited) ∧
      (∀ n, (if n = 0 then waiting else waited).run = true ∧ ∃ k, (if n = 0 then waiting else waited).key k = true) ∧
      waiting.fault = false ∧ waiting.fetchWord = some 0xF30A ∧ decodeWord 0xF30A = .ok (.ldVxK 3) := by
  refine ⟨waiting_execution, alternating_fair _, fun n => ?_, rfl, by decide, by decide⟩
  split
  · exact ⟨rfl, 7, by decide⟩
  · exact ⟨rfl, 7, by decide⟩

end Sys2Proof.Tests
end

/-! Proofs of 10_state.md: the program counter after every instruction (R26). -/

namespace Sys2Proof.Machine

/-- R26's two skip rows in the table's own terms: SkipPC where the condition holds, else NextPC. -/
theorem State.skipIf_pc (s : State) (c : Bool) : (s.skipIf c).pc = if c then s.pcPlus 4 else s.pcPlus 2 := by
  rw [State.pcPlus_four, State.pcPlus_two]
  rfl

/-- The slot that RET loads is the stack's word at index SP − 1. -/
theorem State.slot_eq_getD (s : State) (n : Fin 16) : s.slot n = s.stack.toList.getD n.val 0 := by
  simp [State.slot]

/-- The table's PC after RET is the return address that the pop takes. -/
theorem newPC_ret (s : State) (n : Fin 16) (h : s.sp.val = n.val + 1) : newPC s .ret = s.slot n := by
  simp [newPC, h, State.slot_eq_getD]

theorem newPC_seVxKk (s : State) (x : Reg) (kk : Byte) :
    newPC s (.seVxKk x kk) = (s.skipIf (s.reg x == kk)).pc := by
  simp only [newPC, State.skipIf_pc, beq_iff_eq]

theorem newPC_sneVxKk (s : State) (x : Reg) (kk : Byte) :
    newPC s (.sneVxKk x kk) = (s.skipIf (s.reg x != kk)).pc := by
  simp only [newPC, State.skipIf_pc, bne_iff_ne, ne_eq, ite_not]

theorem newPC_skp (s : State) (x : Reg) (k : Key) (h : (s.reg x).toNat = k.val) :
    newPC s (.skp x) = (s.skipIf (s.key k)).pc := by
  simp only [newPC, State.skipIf_pc, State.key, h]

theorem newPC_sknp (s : State) (x : Reg) (k : Key) (h : (s.reg x).toNat = k.val) :
    newPC s (.sknp x) = (s.skipIf (!s.key k)).pc := by
  simp only [newPC, State.skipIf_pc, State.key, h, Bool.not_eq_true', ← Bool.not_eq_true, ite_not]

/-- An instruction raises a fault with its own word, or completes with FAULT as it was and the PC of R26's table. -/
theorem exec_raises_or_reaches_newPC (i : Instr) (s : State) :
    (∃ k, exec i s = raise k (encode i) s) ∨ ∃ t, exec i s = .next t ∧ t.fault = s.fault ∧ t.pc = newPC s i := by
  have hsp := s.sp.isLt
  cases i with
  | ret =>
    by_cases h : s.sp.val = 0
    · exact .inl ⟨_, exec_ret_empty s h⟩
    · have hn : s.sp.val = (⟨s.sp.val - 1, by omega⟩ : Fin 16).val + 1 := by simp only; omega
      exact .inr ⟨_, exec_ret_pop s _ hn, rfl, (newPC_ret s _ hn).symm⟩
  | jp nnn => exact .inr ⟨_, exec_jp nnn s, rfl, zext16_eq nnn⟩
  | call nnn =>
    by_cases h : s.sp.val = 16
    · exact .inl ⟨_, exec_call_full nnn s h⟩
    · exact .inr ⟨_, exec_call_push nnn s (by omega), rfl, zext16_eq nnn⟩
  | seVxKk x kk => exact .inr ⟨_, exec_seVxKk x kk s, rfl, (newPC_seVxKk s x kk).symm⟩
  | sneVxKk x kk => exact .inr ⟨_, exec_sneVxKk x kk s, rfl, (newPC_sneVxKk s x kk).symm⟩
  | skp x =>
    by_cases h : (s.reg x).toNat < 16
    · exact .inr ⟨_, exec_skp_test x s ⟨_, h⟩ rfl, rfl, (newPC_skp s x ⟨_, h⟩ rfl).symm⟩
    · exact .inl ⟨_, exec_skp_out x s (by omega)⟩
  | sknp x =>
    by_cases h : (s.reg x).toNat < 16
    · exact .inr ⟨_, exec_sknp_test x s ⟨_, h⟩ rfl, rfl, (newPC_sknp s x ⟨_, h⟩ rfl).symm⟩
    · exact .inl ⟨_, exec_sknp_out x s (by omega)⟩
  | ldVxK x =>
    by_cases h : s.keys = 0#16
    · exact .inr ⟨_, exec_ldVxK_wait x s h, rfl, (if_pos h).symm⟩
    · exact .inr ⟨_, exec_ldVxK_load x s h, rfl, s.pcPlus_two.symm.trans (if_neg h).symm⟩
  | drw x y n =>
    by_cases h : n.val = 0 ∨ s.i.toNat + n.val ≤ 4096
    · exact .inr ⟨_, exec_drw_draw x y n s h, rfl, s.pcPlus_two.symm⟩
    · exact .inl ⟨_, exec_drw_out x y n s (by omega) (by omega)⟩
  | ldBVx x =>
    by_cases h : s.i.toNat + 2 ≤ 4095
    · exact .inr ⟨_, exec_ldBVx_store x s h, rfl, s.pcPlus_two.symm⟩
    · exact .inl ⟨_, exec_ldBVx_out x s (by omega)⟩
  | ldVxI x =>
    by_cases h : s.i.toNat + x.val ≤ 4095
    · exact .inr ⟨_, exec_ldVxI_load x s h, rfl, s.pcPlus_two.symm⟩
    · exact .inl ⟨_, exec_ldVxI_out x s (by omega)⟩
  -- The rest of R26's row "every other instruction": none of these faults, and each meaning ends in `advance`.
  | cls | sys | ldVxKk | addVxKk | ldVxVy | andVxVy | xorVxVy | addVxVy | subVxVy | shrVx | ldINnn | rndVxKk
  | ldVxDt | ldDtVx | ldStVx | addIVx => exact .inr ⟨_, rfl, rfl, s.pcPlus_two.symm⟩

/-- Settles O14, by what each instruction can do: one that completes reaches the PC of R26's table, and one that
faults keeps PC and copies it to FPC. -/
theorem pcFollowsTheTable : Obligations.PcFollowsTheTable := by
  intro i s t hs ht
  rcases exec_raises_or_reaches_newPC i s with ⟨k, hraise⟩ | ⟨u, hnext, hfault, hpc⟩
  · obtain rfl := (raise_eq_next k (encode i) s t).1 (hraise.symm.trans ht)
    exact ⟨fun h => absurd h (by simp), fun _ => ⟨rfl, rfl⟩⟩
  · obtain rfl : u = t := Host.Outcome.next.inj (hnext.symm.trans ht)
    exact ⟨fun _ => hpc, fun h => absurd (h.symm.trans (hfault.trans hs)) (by decide)⟩

end Sys2Proof.Machine

/-! Proofs of 30_encoding.md: the decoder against the opcode table (R94, R100) and the unhandled words (R95, R96). -/

namespace Sys2Proof.Machine

/-! ### The rows' masks: every mask of R94 keeps the class and some low bits of a word -/

/-- The mask that keeps the class and the low `l` bits. -/
def rowMask (l : Nat) : Word := BitVec.ofNat 16 (0xF000 + (2 ^ l - 1))

theorem toNat_and_rowMask (w : Word) (l : Nat) (hl : l ≤ 12) :
    (w &&& rowMask l).toNat = fieldClass w * 4096 + w.toNat % 2 ^ l := by
  have hw := w.isLt
  have hpos := Nat.two_pow_pos l
  have hpow : 2 ^ l ≤ 2 ^ 12 := Nat.pow_le_pow_right (by decide) hl
  have hmask : (rowMask l).toNat = 0xF000 + (2 ^ l - 1) := by
    simp only [rowMask, BitVec.toNat_ofNat]
    omega
  have hhigh : (w &&& rowMask l).toNat / 2 ^ 12 = w.toNat / 4096 := by
    rw [BitVec.toNat_and, Nat.and_div_two_pow, hmask, show (0xF000 + (2 ^ l - 1)) / 2 ^ 12 = 2 ^ 4 - 1 by omega,
      Nat.and_two_pow_sub_one_eq_mod]
    omega
  have hlow : (w &&& rowMask l).toNat % 2 ^ 12 = w.toNat % 2 ^ l := by
    rw [BitVec.toNat_and, Nat.and_mod_two_pow, hmask, show (0xF000 + (2 ^ l - 1)) % 2 ^ 12 = 2 ^ l - 1 by omega,
      Nat.and_two_pow_sub_one_eq_mod, Nat.mod_mod_of_dvd _ (Nat.pow_dvd_pow 2 hl)]
  rw [fieldClass_eq]
  omega

/-- A word selects a row of format FIXED by its class and `nnn`. -/
theorem and_FFFF_eq_iff (w m : Word) : w &&& 0xFFFF#16 = m ↔ fieldClass w * 4096 + (fieldNnn w).toNat = m.toNat := by
  rw [← BitVec.toNat_inj, show 0xFFFF#16 = rowMask 12 from rfl, toNat_and_rowMask w 12 (by decide), fieldNnn_toNat]
  rfl

/-- A word selects a row of formats NNN, XKK or XYN by its class. -/
theorem and_F000_eq_iff (w m : Word) : w &&& 0xF000#16 = m ↔ fieldClass w * 4096 = m.toNat := by
  rw [← BitVec.toNat_inj, show 0xF000#16 = rowMask 0 from rfl, toNat_and_rowMask w 0 (by decide), Nat.pow_zero,
    Nat.mod_one, Nat.add_zero]

/-- A word selects a row of format XYO by its class and `n`. -/
theorem and_F00F_eq_iff (w m : Word) : w &&& 0xF00F#16 = m ↔ fieldClass w * 4096 + (fieldN w).val = m.toNat := by
  rw [← BitVec.toNat_inj, show 0xF00F#16 = rowMask 4 from rfl, toNat_and_rowMask w 4 (by decide), fieldN_val]
  rfl

/-- A word selects a row of format XOO by its class and `kk`. -/
theorem and_F0FF_eq_iff (w m : Word) : w &&& 0xF0FF#16 = m ↔ fieldClass w * 4096 + (fieldKk w).toNat = m.toNat := by
  rw [← BitVec.toNat_inj, show 0xF0FF#16 = rowMask 8 from rfl, toNat_and_rowMask w 8 (by decide), fieldKk_toNat]
  rfl

/-! ### Which row a word selects first -/

/-- R100: no word selects two rows, except that rows 1 and 2 lie inside row 3. Where both masks look, their match values
differ. -/
theorem opcodeTable_disjoint :
    ∀ k < 27, k ≠ 2 → ∀ j < k,
      (opcodeTable.getD j default).1 &&& (opcodeTable.getD k default).2 ≠
        (opcodeTable.getD k default).1 &&& (opcodeTable.getD j default).2 := by
  decide

/-- A row other than SYS's is the first that a word selects as soon as the word selects it. -/
theorem firstRow_eq_some_of_selects {w m mask : Word} {k : Nat} (hk : k ≠ 2)
    (hrow : opcodeTable[k]? = some (m, mask)) (hsel : w &&& mask = m) : firstRow w = some k := by
  obtain ⟨hlt, hget⟩ := List.getElem?_eq_some_iff.1 hrow
  refine List.findIdx?_eq_some_iff_getElem.2 ⟨hlt, by simp [hget, hsel], fun j hj hj' => ?_⟩
  have hclash := opcodeTable_disjoint k hlt hk j hj
  have hjsel : w &&& opcodeTable[j].2 = opcodeTable[j].1 := beq_iff_eq.1 hj'
  rw [List.getD_eq_getElem _ _ (hj.trans hlt), List.getD_eq_getElem _ _ hlt, hget, ← hjsel] at hclash
  apply hclash
  simp only [← hsel]
  ac_rfl

theorem firstRow_of_class {w m : Word} {k c : Nat} (hk : k ≠ 2) (hrow : opcodeTable[k]? = some (m, 0xF000#16))
    (hc : fieldClass w = c) (hm : c * 4096 = m.toNat) : firstRow w = some k :=
  firstRow_eq_some_of_selects hk hrow ((and_F000_eq_iff w m).2 (hc ▸ hm))

theorem firstRow_of_class_n {w m : Word} {k c n : Nat} (hk : k ≠ 2) (hrow : opcodeTable[k]? = some (m, 0xF00F#16))
    (hc : fieldClass w = c) (hn : (fieldN w).val = n) (hm : c * 4096 + n = m.toNat) : firstRow w = some k :=
  firstRow_eq_some_of_selects hk hrow ((and_F00F_eq_iff w m).2 (hc ▸ hn ▸ hm))

theorem firstRow_of_class_kk {w m : Word} {k c kk : Nat} (hk : k ≠ 2) (hrow : opcodeTable[k]? = some (m, 0xF0FF#16))
    (hc : fieldClass w = c) (hkk : (fieldKk w).toNat = kk) (hm : c * 4096 + kk = m.toNat) : firstRow w = some k :=
  firstRow_eq_some_of_selects hk hrow ((and_F0FF_eq_iff w m).2 (hc ▸ hkk ▸ hm))

/-- R95: a word of the right-hand column selects no row of R94. -/
theorem firstRow_eq_none_of_unhandledWord {w : Word} (h : UnhandledWord w) : firstRow w = none := by
  have hn16 := (fieldN w).isLt
  simp only [UnhandledWord, ← fieldClass_eq, ← fieldN_val, ← fieldKk_toNat, List.mem_cons, List.not_mem_nil,
    or_false] at h
  -- In terms of the fields, each row of the table is one disequality.
  refine List.findIdx?_eq_none_iff.2 (List.forall_iff_forall_mem.1 ?_)
  simp only [opcodeTable, List.Forall, beq_eq_false_iff_ne, ne_eq, BitVec.ofNat_eq_ofNat, BitVec.toNat_ofNat,
    and_FFFF_eq_iff, and_F000_eq_iff, and_F00F_eq_iff, and_F0FF_eq_iff]
  obtain hc | hc | hc | ⟨hc, hn⟩ | ⟨hc, hkk⟩ | ⟨hc, hkk⟩ := h
  all_goals
    rw [hc]
    omega

/-! ### The decoder's classes: the row of what is decoded, and where nothing is -/

/-- Class 0: rows 1 and 2 take precedence over row 3 (R100). -/
theorem firstRow_decodeClass0 (w : Word) (hc : fieldClass w = 0) : firstRow w = some (rowOf (decodeClass0 w)) := by
  unfold decodeClass0
  split
  case isTrue hcls => exact hcls ▸ rfl
  case isFalse hcls =>
    split
    case isTrue hret => exact hret ▸ rfl
    case isFalse hret =>
      have hwhole : w &&& 0xFFFF#16 = w := BitVec.and_allOnes
      simp [firstRow, opcodeTable, List.findIdx?_cons, hwhole, hcls, hret, and_F000_eq_iff, hc, rowOf]

theorem firstRow_of_decodeClass8_ok {w : Word} {i : Instr} (hc : fieldClass w = 8) (h : decodeClass8 w = .ok i) :
    firstRow w = some (rowOf i) := by
  unfold decodeClass8 at h
  split at h <;> cases h
  all_goals exact firstRow_of_class_n (by simp [rowOf]) rfl hc ‹_› rfl

theorem firstRow_of_decodeClassE_ok {w : Word} {i : Instr} (hc : fieldClass w = 14) (h : decodeClassE w = .ok i) :
    firstRow w = some (rowOf i) := by
  unfold decodeClassE at h
  split at h <;> cases h
  all_goals exact firstRow_of_class_kk (by simp [rowOf]) rfl hc ‹_› rfl

theorem firstRow_of_decodeClassF_ok {w : Word} {i : Instr} (hc : fieldClass w = 15) (h : decodeClassF w = .ok i) :
    firstRow w = some (rowOf i) := by
  unfold decodeClassF at h
  split at h <;> cases h
  all_goals exact firstRow_of_class_kk (by simp [rowOf]) rfl hc ‹_› rfl

/-- An instruction decoded from a word is of the first row that the word selects. -/
theorem firstRow_of_decodeWord_ok {w : Word} {i : Instr} (h : decodeWord w = .ok i) :
    firstRow w = some (rowOf i) := by
  unfold decodeWord at h
  split at h
  case h_1 hc => cases h; exact firstRow_decodeClass0 w hc
  case h_8 hc => exact firstRow_of_decodeClass8_ok hc h
  case h_12 hc => exact firstRow_of_decodeClassE_ok hc h
  case h_13 hc => exact firstRow_of_decodeClassF_ok hc h
  case h_14 => cases h
  -- The classes that are one row each.
  all_goals cases h; exact firstRow_of_class (by simp [rowOf]) rfl ‹_› rfl

theorem decodeClass8_error {w : Word} {e : DecodeError} (h : decodeClass8 w = .error e) :
    w.toNat % 16 ∉ [0, 2, 3, 4, 5, 6] := by
  unfold decodeClass8 at h
  split at h <;> cases h
  simp_all [← fieldN_val, -Fin.val_eq_zero_iff]

theorem decodeClassE_error {w : Word} {e : DecodeError} (h : decodeClassE w = .error e) :
    w.toNat % 256 ∉ [0x9E, 0xA1] := by
  unfold decodeClassE at h
  split at h <;> cases h
  simp_all [← fieldKk_toNat]

theorem decodeClassF_error {w : Word} {e : DecodeError} (h : decodeClassF w = .error e) :
    w.toNat % 256 ∉ [0x07, 0x0A, 0x15, 0x18, 0x1E, 0x33, 0x65] := by
  unfold decodeClassF at h
  split at h <;> cases h
  simp_all [← fieldKk_toNat]

/-- A word with no instruction lies in R95's right-hand column. -/
theorem unhandledWord_of_decodeWord_error {w : Word} {e : DecodeError} (h : decodeWord w = .error e) :
    UnhandledWord w := by
  have hw := w.isLt
  unfold UnhandledWord
  rw [← fieldClass_eq]
  unfold decodeWord at h
  split at h
  case h_8 hc => exact .inr (.inr (.inr (.inl ⟨hc, decodeClass8_error h⟩)))
  case h_12 hc => exact .inr (.inr (.inr (.inr (.inl ⟨hc, decodeClassE_error h⟩))))
  case h_13 hc => exact .inr (.inr (.inr (.inr (.inr ⟨hc, decodeClassF_error h⟩))))
  -- No class of its own: what is left below 16 is 5, 9 and B.
  case h_14 =>
    have hlt : fieldClass w < 16 := by rw [fieldClass_eq]; omega
    simp only [imp_false] at *
    omega
  all_goals cases h

/-- Settles O3, by the decoder's two answers: an instruction is of the first row the word selects, and a word without
one is in R95's right-hand column, where no row is selected. -/
theorem decoderFollowsTheOpcodeTable : Obligations.DecoderFollowsTheOpcodeTable := by
  intro w
  cases h : decodeWord w with
  | ok i => exact (firstRow_of_decodeWord_ok h).symm
  | error e => exact (firstRow_eq_none_of_unhandledWord (unhandledWord_of_decodeWord_error h)).symm

/-- R96: the words without an instruction are exactly those of the column. -/
theorem decodeWord_error_iff (w : Word) : (∃ e, decodeWord w = .error e) ↔ UnhandledWord w := by
  refine ⟨fun ⟨_, h⟩ => unhandledWord_of_decodeWord_error h, fun hw => ?_⟩
  cases h : decodeWord w with
  | error e => exact ⟨e, rfl⟩
  | ok i => cases (firstRow_of_decodeWord_ok h).symm.trans (firstRow_eq_none_of_unhandledWord hw)

/-- Settles O4, by O3's two halves: a word in the column selects no row, so it has no instruction to run. -/
theorem unhandledWordsAreExactlyTheColumn : Obligations.UnhandledWordsAreExactlyTheColumn := by
  refine fun w => ⟨decodeWord_error_iff w, fun hw s => ?_⟩
  obtain ⟨e, he⟩ := (decodeWord_error_iff w).2 hw
  simp only [runWord, he]

end Sys2Proof.Machine

/-! Proofs of 40_control_flow.md: SYS, JP, RET, SE and SNE (R120 to R122, R124, R125). -/

namespace Sys2Proof.Machine

/-! ### Decoding the words of SYS, JP, SE and SNE -/

theorem wordNnn_injective (c : Nat) (hc : c < 16) : Function.Injective (wordNnn c) :=
  Function.LeftInverse.injective (fieldNnn_wordNnn c hc)

/-- R94 row 3: a class-0 word is SYS's unless its `nnn` makes it the word of CLS or RET. -/
theorem decodeWord_wordNnn_sys (nnn : Imm12) (hcls : nnn ≠ 0x0E0#12) (hret : nnn ≠ 0x0EE#12) :
    decodeWord (wordNnn 0 nnn) = .ok (.sys nnn) := by
  have hclsWord : wordNnn 0 nnn ≠ 0x00E0#16 := (wordNnn_injective 0 (by decide)).ne hcls
  have hretWord : wordNnn 0 nnn ≠ 0x00EE#16 := (wordNnn_injective 0 (by decide)).ne hret
  simp only [decodeWord, decodeClass0, fieldClass_wordNnn 0 (by decide), if_neg hclsWord, if_neg hretWord,
    fieldNnn_wordNnn 0 (by decide)]

theorem decodeWord_wordNnn_jp (nnn : Imm12) : decodeWord (wordNnn 1 nnn) = .ok (.jp nnn) := by
  simp only [decodeWord, fieldClass_wordNnn 1 (by decide), fieldNnn_wordNnn 1 (by decide)]

theorem decodeWord_wordXkk_seVxKk (x : Reg) (kk : Byte) : decodeWord (wordXkk 3 x kk) = .ok (.seVxKk x kk) := by
  simp only [decodeWord, fieldClass_wordXkk 3 (by decide), fieldX_wordXkk 3 (by decide),
    fieldKk_wordXkk 3 (by decide)]

theorem decodeWord_wordXkk_sneVxKk (x : Reg) (kk : Byte) : decodeWord (wordXkk 4 x kk) = .ok (.sneVxKk x kk) := by
  simp only [decodeWord, fieldClass_wordXkk 4 (by decide), fieldX_wordXkk 4 (by decide),
    fieldKk_wordXkk 4 (by decide)]

/-! ### Advancing and skipping in the rules' terms: the whole state but PC is kept -/

theorem State.advance_eq_pcPlus (s : State) : s.advance = { s with pc := s.pcPlus 2 } := by
  rw [s.pcPlus_two]
  rfl

theorem State.skipIf_eq_pcPlus (s : State) (c : Bool) :
    s.skipIf c = { s with pc := if c then s.pcPlus 4 else s.pcPlus 2 } := by
  rw [← s.skipIf_pc]
  rfl

/-! ### The obligations -/

/-- Settles O15: SYS's word is neither CLS's nor RET's, and its meaning is the advance alone. -/
theorem sysDoesNothing : Obligations.SysDoesNothing := by
  refine fun nnn s => ⟨fun hcls hret => ?_, ?_⟩
  · have hword : BitVec.ofNat 16 nnn.toNat = wordNnn 0 nnn := by rw [← pattern_nnn 0 0 nnn rfl, Nat.zero_add]
    rw [hword, decodeWord_wordNnn_sys nnn hcls hret]
  · rw [exec_sys, State.advance_eq_pcPlus]

/-- Settles O16: JP's meaning sets PC to `nnn`, and zero-extending keeps the number. -/
theorem jpSetsPc : Obligations.JpSetsPc := by
  refine fun nnn s => ⟨?_, s.setPc (zext16 nnn), exec_jp nnn s, rfl, zext16_toNat nnn⟩
  rw [pattern_nnn 0x1000 1 nnn rfl, decodeWord_wordNnn_jp]

/-- Settles O17, by what RET answers on a stack that holds an address and on an empty one. -/
theorem retPopsTheReturnAddress : Obligations.RetPopsTheReturnAddress :=
  ⟨by decide, fun s => ⟨fun n hn => ⟨_, exec_ret_pop s n hn, rfl, rfl⟩, fun h => exec_ret_empty s h⟩⟩

/-- Settles O20: SE and SNE are `skipIf` on equality and on inequality. -/
theorem seAndSneSkip : Obligations.SeAndSneSkip := by
  refine fun x kk s => ⟨?_, ?_, ?_, ?_⟩
  · rw [pattern_xkk 0x3000 3 x kk rfl, decodeWord_wordXkk_seVxKk]
  · rw [pattern_xkk 0x4000 4 x kk rfl, decodeWord_wordXkk_sneVxKk]
  · simp only [exec_seVxKk, State.skipIf_eq_pcPlus, beq_iff_eq]
  · simp only [exec_sneVxKk, State.skipIf_eq_pcPlus, bne_iff_ne]

end Sys2Proof.Machine

/-! Proofs of 41_alu.md: register loads, AND, XOR, the additions, and the index register (R140 to R145, R149, R150). -/

namespace Sys2Proof.Machine

/-! ### Decoding the words of these instructions -/

theorem decodeWord_wordXkk_ldVxKk (x : Reg) (kk : Byte) : decodeWord (wordXkk 6 x kk) = .ok (.ldVxKk x kk) := by
  simp only [decodeWord, fieldClass_wordXkk 6 (by decide), fieldX_wordXkk 6 (by decide),
    fieldKk_wordXkk 6 (by decide)]

theorem decodeWord_wordXkk_addVxKk (x : Reg) (kk : Byte) : decodeWord (wordXkk 7 x kk) = .ok (.addVxKk x kk) := by
  simp only [decodeWord, fieldClass_wordXkk 7 (by decide), fieldX_wordXkk 7 (by decide),
    fieldKk_wordXkk 7 (by decide)]

theorem decodeWord_wordNnn_ldINnn (nnn : Imm12) : decodeWord (wordNnn 10 nnn) = .ok (.ldINnn nnn) := by
  simp only [decodeWord, fieldClass_wordNnn 10 (by decide), fieldNnn_wordNnn 10 (by decide)]

theorem decodeWord_wordXkk_addIVx (x : Reg) : decodeWord (wordXkk 15 x 0x1E#8) = .ok (.addIVx x) := by
  have hkk : (fieldKk (wordXkk 15 x 0x1E#8)).toNat = 0x1E := by rw [fieldKk_wordXkk 15 (by decide)]; rfl
  simp only [decodeWord, decodeClassF, fieldClass_wordXkk 15 (by decide), hkk, fieldX_wordXkk 15 (by decide)]

/-- R94 rows 10 to 15: a class-8 word is decoded by its `n` to an instruction `op` on its `x` and `y`. -/
theorem decodeWord_wordXyn_class8 (x y : Reg) (n : Fin 16) (op : Reg → Reg → Instr)
    (h : ∀ w, fieldN w = n → decodeClass8 w = .ok (op (fieldX w) (fieldY w))) :
    decodeWord (wordXyn 8 x y n) = .ok (op x y) := by
  simp only [decodeWord, fieldClass_wordXyn 8 (by decide), h _ (fieldN_wordXyn 8 (by decide) x y n),
    fieldX_wordXyn 8 (by decide), fieldY_wordXyn 8 (by decide)]

theorem decodeWord_wordXyn_ldVxVy (x y : Reg) : decodeWord (wordXyn 8 x y 0) = .ok (.ldVxVy x y) :=
  decodeWord_wordXyn_class8 x y 0 .ldVxVy fun _ hn => by rw [decodeClass8, hn]; rfl

theorem decodeWord_wordXyn_andVxVy (x y : Reg) : decodeWord (wordXyn 8 x y 2) = .ok (.andVxVy x y) :=
  decodeWord_wordXyn_class8 x y 2 .andVxVy fun _ hn => by rw [decodeClass8, hn]; rfl

theorem decodeWord_wordXyn_xorVxVy (x y : Reg) : decodeWord (wordXyn 8 x y 3) = .ok (.xorVxVy x y) :=
  decodeWord_wordXyn_class8 x y 3 .xorVxVy fun _ hn => by rw [decodeClass8, hn]; rfl

theorem decodeWord_wordXyn_addVxVy (x y : Reg) : decodeWord (wordXyn 8 x y 4) = .ok (.addVxVy x y) :=
  decodeWord_wordXyn_class8 x y 4 .addVxVy fun _ hn => by rw [decodeClass8, hn]; rfl

/-! ### The three ways these instructions complete -/

/-- An instruction that writes one register and advances: that register, and all else but PC kept. -/
theorem exec_setReg_advance_effect {i : Instr} {s : State} {x : Reg} {b : Byte}
    (h : exec i s = .next (s.setReg x b).advance) :
    ∃ t, exec i s = .next t ∧ t = { s with v := t.v, pc := s.pcPlus 2 } ∧
      ∀ r, t.reg r = if r = x then b else s.reg r := by
  refine ⟨_, h, ?_, fun r => s.reg_setReg x r b⟩
  rw [State.pcPlus_two]
  rfl

/-- R23: an instruction that writes a flag to VF and then its result to V[x], so that the result is what stays where
x = F. -/
theorem exec_setFlag_setReg_advance_effect {i : Instr} {s : State} {x : Reg} {flag b : Byte}
    (h : exec i s = .next ((s.setReg VF flag).setReg x b).advance) :
    ∃ t, exec i s = .next t ∧ t = { s with v := t.v, pc := s.pcPlus 2 } ∧
      t.reg x = b ∧ (x ≠ VF → t.reg VF = flag) ∧ ∀ r, r ≠ x → r ≠ VF → t.reg r = s.reg r := by
  have hreg : ∀ r, ((s.setReg VF flag).setReg x b).advance.reg r =
      if r = x then b else if r = VF then flag else s.reg r := by simp
  refine ⟨_, h, ?_, ?_, fun hx => ?_, fun r hr hf => ?_⟩
  · rw [State.pcPlus_two]
    rfl
  · rw [hreg, if_pos rfl]
  · rw [hreg, if_neg hx.symm, if_pos rfl]
  · rw [hreg, if_neg hr, if_neg hf]

/-- An instruction that writes I and advances: I, and all else but PC kept. -/
theorem exec_setI_advance_effect {i : Instr} {s : State} {w : Word}
    (h : exec i s = .next ({ s with i := w } : State).advance) :
    ∃ t, exec i s = .next t ∧ t = { s with i := t.i, pc := s.pcPlus 2 } ∧ t.i = w := by
  refine ⟨_, h, ?_, rfl⟩
  rw [State.pcPlus_two]
  rfl

/-! ### The values -/

theorem flagByte_toNat (b : Bool) : (flagByte b).toNat = if b then 1 else 0 := by cases b <;> rfl

/-- R145: ADD's flag is the carry out of eight bits. -/
theorem addFlag_toNat (a b : Byte) : (addFlag a b).toNat = if a.toNat + b.toNat > 255 then 1 else 0 := by
  rw [addFlag, flagByte_toNat]
  simp only [decide_eq_true_eq]

/-- R150: a byte added to I wraps at 16 bits. -/
theorem add_setWidth_byte_toNat (w : Word) (b : Byte) :
    (w + b.setWidth 16).toNat = (w.toNat + b.toNat) % 65536 := by
  rw [BitVec.toNat_add, BitVec.toNat_setWidth_of_le (by decide)]

/-! ### The obligations -/

/-- Settles O21: both write V[x] and advance; ADD's byte sum is the sum modulo 256. -/
theorem immediateLoadAndAdd : Obligations.ImmediateLoadAndAdd := by
  refine fun x kk s => ⟨?_, ?_, exec_setReg_advance_effect (exec_ldVxKk x kk s), ?_⟩
  · rw [pattern_xkk 0x6000 6 x kk rfl, decodeWord_wordXkk_ldVxKk]
  · rw [pattern_xkk 0x7000 7 x kk rfl, decodeWord_wordXkk_addVxKk]
  · obtain ⟨t, hnext, hframe, hreg⟩ := exec_setReg_advance_effect (exec_addVxKk x kk s)
    refine ⟨t, hnext, hframe, fun r => ?_⟩
    rw [hreg, apply_ite BitVec.toNat, BitVec.toNat_add]

/-- Settles O22: each of the three writes V[x] and advances. -/
theorem moveAndXorWriteOneRegister : Obligations.MoveAndXorWriteOneRegister := by
  refine fun x y s => ⟨?_, ?_, ?_, exec_setReg_advance_effect (exec_ldVxVy x y s),
    exec_setReg_advance_effect (exec_andVxVy x y s), exec_setReg_advance_effect (exec_xorVxVy x y s)⟩
  · rw [pattern_xyo 0x8000 8 x y 0 rfl, decodeWord_wordXyn_ldVxVy]
  · rw [pattern_xyo 0x8002 8 x y 2 rfl, decodeWord_wordXyn_andVxVy]
  · rw [pattern_xyo 0x8003 8 x y 3 rfl, decodeWord_wordXyn_xorVxVy]

/-- Settles O23: the flag is the carry, and the sum is written after it. -/
theorem addSetsCarry : Obligations.AddSetsCarry := by
  intro x y s
  obtain ⟨t, hnext, hframe, hsum, hflag, hother⟩ := exec_setFlag_setReg_advance_effect (exec_addVxVy x y s)
  refine ⟨?_, t, hnext, hframe, ?_, fun hx => ?_, hother⟩
  · rw [pattern_xyo 0x8004 8 x y 4 rfl, decodeWord_wordXyn_addVxVy]
  · rw [hsum, BitVec.toNat_add]
  · rw [hflag hx, addFlag_toNat]

/-- Settles O27: both write I and advance; zero-extending keeps the number, and the sum wraps at 16 bits. -/
theorem indexLoadAndAdd : Obligations.IndexLoadAndAdd := by
  intro nnn x s
  obtain ⟨t, hnext, hframe, hi⟩ := exec_setI_advance_effect (exec_ldINnn nnn s)
  obtain ⟨u, hnext', hframe', hi'⟩ := exec_setI_advance_effect (exec_addIVx x s)
  refine ⟨?_, ?_, ⟨t, hnext, hframe, ?_⟩, u, hnext', hframe', ?_⟩
  · rw [pattern_nnn 0xA000 10 nnn rfl, decodeWord_wordNnn_ldINnn]
  · rw [pattern_xoo 0xF01E 15 x 0x1E#8 rfl, decodeWord_wordXkk_addIVx]
  · rw [hi, zext16_toNat]
  · rw [hi', add_setWidth_byte_toNat]

end Sys2Proof.Machine

/-! Proofs of 42_display.md: CLS (R170). -/

namespace Sys2Proof.Machine

/-- Settles O29: CLS's meaning advances from `s` with the clear display, in which every cell is 0. -/
theorem clsClearsEveryCell : Obligations.ClsClearsEveryCell := by
  refine ⟨by decide, fun s => ⟨_, exec_cls s, ?_, fun row col => ?_⟩⟩
  · exact State.advance_eq_pcPlus { s with disp := Display.clear }
  · exact Display.cell_clear row col

end Sys2Proof.Machine

/-! Proofs of 43_keypad_timers.md: the delay timer's loads (R192, R194) and LD Vx,K (R193). -/

namespace Sys2Proof.Machine

/-! ### Decoding the words of these instructions -/

/-- R94 rows 21 to 27: a class-F word is decoded by its `kk` to an instruction `op` on its `x`. -/
theorem decodeWord_wordXkk_classF (x : Reg) (kk : Byte) (op : Reg → Instr)
    (h : ∀ w, fieldKk w = kk → decodeClassF w = .ok (op (fieldX w))) :
    decodeWord (wordXkk 15 x kk) = .ok (op x) := by
  simp only [decodeWord, fieldClass_wordXkk 15 (by decide), h _ (fieldKk_wordXkk 15 (by decide) x kk),
    fieldX_wordXkk 15 (by decide)]

theorem decodeWord_wordXkk_ldVxDt (x : Reg) : decodeWord (wordXkk 15 x 0x07#8) = .ok (.ldVxDt x) :=
  decodeWord_wordXkk_classF x 0x07#8 .ldVxDt fun _ hkk => by rw [decodeClassF, hkk]; rfl

theorem decodeWord_wordXkk_ldVxK (x : Reg) : decodeWord (wordXkk 15 x 0x0A#8) = .ok (.ldVxK x) :=
  decodeWord_wordXkk_classF x 0x0A#8 .ldVxK fun _ hkk => by rw [decodeClassF, hkk]; rfl

theorem decodeWord_wordXkk_ldDtVx (x : Reg) : decodeWord (wordXkk 15 x 0x15#8) = .ok (.ldDtVx x) :=
  decodeWord_wordXkk_classF x 0x15#8 .ldDtVx fun _ hkk => by rw [decodeClassF, hkk]; rfl

/-! ### The key vector by its keys -/

/-- The vector is zero, which is what LD Vx,K tests, exactly when no key is down. -/
theorem State.keys_eq_zero_iff (s : State) : s.keys = 0#16 ↔ ∀ k, s.key k = false := by
  constructor
  · intro h k
    rw [State.key, h, BitVec.getLsbD_zero]
  · intro h
    by_contra hne
    obtain ⟨k, hk⟩ := exists_pressed s.keys hne
    exact Bool.false_ne_true ((h k).symm.trans hk)

theorem State.keys_ne_zero_of_key {s : State} {k : Key} (h : s.key k = true) : s.keys ≠ 0#16 :=
  fun hzero => Bool.false_ne_true ((s.keys_eq_zero_iff.1 hzero k).symm.trans h)

/-- A key's index fits the byte that LD Vx,K loads. -/
theorem key_byte_toNat (k : Key) : (BitVec.ofNat 8 k.val).toNat = k.val :=
  Nat.mod_eq_of_lt (k.isLt.trans (by decide))

/-! ### The obligations -/

/-- Settles O37: with no key down the vector is zero and LD Vx,K waits; otherwise it loads KEY_SELECT's answer, which is
a pressed key and so the only one where there is one. -/
theorem ldKeyWaitsOrLoadsAPressedKey : Obligations.LdKeyWaitsOrLoadsAPressedKey := by
  refine fun x s => ⟨?_, fun hnone => exec_ldVxK_wait x s (s.keys_eq_zero_iff.2 hnone), fun q hq => ?_⟩
  · rw [pattern_xoo 0xF00A 15 x 0x0A#8 rfl, decodeWord_wordXkk_ldVxK]
  · have hdown : s.keys ≠ 0#16 := State.keys_ne_zero_of_key hq
    have hpressed : s.key (keySelect s.keys) = true := keySelect_pressed s.keys hdown
    obtain ⟨t, hnext, hframe, hreg⟩ := exec_setReg_advance_effect (exec_ldVxK_load x s hdown)
    refine ⟨t, keySelect s.keys, hnext, hframe, hpressed, ?_, fun r hr => ?_, fun honly => honly _ hpressed⟩
    · rw [hreg, if_pos rfl, key_byte_toNat]
    · rw [hreg, if_neg hr]

/-- Settles O35: LD Vx,DT writes V[x] and advances, LD DT,Vx writes DT and advances. -/
theorem delayTimerLoads : Obligations.DelayTimerLoads := by
  refine fun x s => ⟨?_, ?_, exec_setReg_advance_effect (exec_ldVxDt x s), ?_⟩
  · rw [pattern_xoo 0xF007 15 x 0x07#8 rfl, decodeWord_wordXkk_ldVxDt]
  · rw [pattern_xoo 0xF015 15 x 0x15#8 rfl, decodeWord_wordXkk_ldDtVx]
  · rw [exec_ldDtVx, State.advance_eq_pcPlus]
    rfl

end Sys2Proof.Machine

/-! Proofs of 60_exceptions.md: the sticky fault record (R226) and the key moves (R240). -/

namespace Sys2Proof.Machine

/-! ### What a host move can do (R236) -/

theorem hostInit_eq_next {rom : List Byte} {s t : State} :
    hostInit rom s = .next t ↔ s.run = false ∧ rom.length ≤ Config.romMax ∧ t = s.initialised rom := by
  unfold hostInit
  cases s.run with
  | true => simp
  | false =>
    by_cases hlen : rom.length > Config.romMax
    · simp [hlen]
    · simp [hlen, Nat.le_of_not_lt hlen, eq_comm]

theorem hostStart_eq_next {s t : State} :
    hostStart s = .next t ↔ s.run = false ∧ s.aborted = false ∧ t = { s with run := true } := by
  unfold hostStart
  cases s.run <;> cases s.aborted <;> simp [eq_comm]

theorem hostAbort_eq_next {s t : State} :
    hostAbort s = .next t ↔ s.run = true ∧ t = { s with run := false, aborted := true } := by
  unfold hostAbort
  cases s.run <;> simp [eq_comm]

/-- R75 for the HOST: a move that answers a next state is Init, which needs RUN = 0 and rebuilds the state, or it writes
KEYS, RUN and `aborted` only. -/
theorem hostMove_rebuilds_or_frames {m : HostMove} {s t : State} (h : hostMove m s = .next t) :
    (∃ rom, m = .init rom ∧ s.run = false ∧ t = s.initialised rom) ∨
    ∃ keys run aborted, t = { s with keys := keys, run := run, aborted := aborted } := by
  cases m with
  | init rom =>
    obtain ⟨hrun, -, rfl⟩ := hostInit_eq_next.1 h
    exact .inl ⟨rom, rfl, hrun, rfl⟩
  | start =>
    obtain ⟨-, -, rfl⟩ := hostStart_eq_next.1 h
    exact .inr ⟨_, _, _, rfl⟩
  | abort =>
    obtain ⟨-, rfl⟩ := hostAbort_eq_next.1 h
    exact .inr ⟨_, _, _, rfl⟩
  | keyDown | keyUp | readDisplay | readTimers | readFault =>
    obtain rfl := Host.Outcome.next.inj h
    exact .inr ⟨_, _, _, rfl⟩

/-- Every host move but KeyDown and KeyUp leaves the keys; Init copies them. -/
theorem hostMove_keys {m : HostMove} {s t : State} (h : hostMove m s = .next t)
    (hm : ∀ k, m ≠ .keyDown k ∧ m ≠ .keyUp k) : t.keys = s.keys := by
  cases m with
  | init rom =>
    obtain ⟨-, -, rfl⟩ := hostInit_eq_next.1 h
    rfl
  | start =>
    obtain ⟨-, -, rfl⟩ := hostStart_eq_next.1 h
    rfl
  | abort =>
    obtain ⟨-, rfl⟩ := hostAbort_eq_next.1 h
    rfl
  | keyDown k => exact absurd rfl (hm k).1
  | keyUp k => exact absurd rfl (hm k).2
  | readDisplay | readTimers | readFault =>
    obtain rfl := Host.Outcome.next.inj h
    rfl

/-! ### The other agents -/

/-- R230: a tick writes the timers only. -/
theorem timerTick_frame (s : State) : ∃ dt st, timerTick s = { s with dt := dt, st := st } := by
  unfold timerTick
  split
  · exact ⟨_, _, rfl⟩
  · exact ⟨s.dt, s.st, rfl⟩

/-- No instruction writes the keys, whether it completes or faults. -/
theorem exec_keys {i : Instr} {s t : State} (h : exec i s = .next t) : t.keys = s.keys := by
  rcases exec_raises_or_completes i s with ⟨k, hraise⟩ | ⟨u, hnext, hsame⟩
  · obtain rfl := (raise_eq_next k (encode i) s t).1 (hraise.symm.trans h)
    rfl
  · obtain rfl : u = t := Host.Outcome.next.inj (hnext.symm.trans h)
    exact hsame.keys

/-- What a step can be once FAULT = 1: the CPU agent only lets its turn pass. -/
theorem step_cases_of_fault {s : State} (hfault : s.fault = true) :
    step s = .next s.popTurn ∨ step s = .next (timerTick s.popTurn) ∨
    ∃ m, s.nextTurn = .host m ∧ step s = hostMove m s.popTurn := by
  have hhalted : ¬ s.CpuReady := fun ⟨_, _, hclear⟩ => Bool.false_ne_true (hclear.symm.trans hfault)
  rcases step_cases s with ⟨-, -, hpass⟩ | ⟨hready, -⟩ | ⟨hready, -⟩ | ⟨hready, -⟩ | ⟨-, htick⟩ | hhost
  · exact .inl hpass
  · exact absurd hready hhalted
  · exact absurd hready hhalted
  · exact absurd hready hhalted
  · exact .inr (.inl htick)
  · exact .inr (.inr hhost)

/-! ### The obligations -/

/-- Settles O11: with FAULT = 1 the CPU's turn passes, a tick writes the timers, and a host move other than Init writes
KEYS, RUN and `aborted`, so only Init touches the record. -/
theorem faultRecordIsSticky : Obligations.FaultRecordIsSticky := by
  intro s t hfault ht
  rcases step_cases_of_fault hfault with hpass | htick | ⟨m, hturn, hhost⟩
  · obtain rfl := Host.Outcome.next.inj (hpass.symm.trans ht)
    exact .inr ⟨hfault, rfl, rfl, rfl, rfl⟩
  · obtain ⟨dt, st, hframe⟩ := timerTick_frame s.popTurn
    obtain rfl := Host.Outcome.next.inj ((hframe ▸ htick).symm.trans ht)
    exact .inr ⟨hfault, rfl, rfl, rfl, rfl⟩
  · rcases hostMove_rebuilds_or_frames (hhost.symm.trans ht) with ⟨rom, rfl, hrun, rfl⟩ | ⟨keys, run, aborted, rfl⟩
    · exact .inl ⟨rom, hturn, hrun, rfl, rfl⟩
    · exact .inr ⟨hfault, rfl, rfl, rfl, rfl⟩

/-- R240: the step of a key move that sets KEY[k] to `b` changes that key and nothing else. -/
theorem key_move_sets_one_key {s : State} {k : Key} {b : Bool} (h : step s = .next (s.popTurn.setKey k b)) :
    ∃ t, step s = .next t ∧ t = { s with turns := s.turns.tail, keys := t.keys } ∧
      ∀ q, t.key q = if q = k then b else s.key q :=
  ⟨_, h, rfl, fun q => State.key_setKey s.popTurn k q b⟩

/-- A step that is not a key move leaves the keys, whichever agent takes it. -/
theorem step_keys {s t : State} (ht : step s = .next t)
    (hturn : ∀ k, s.nextTurn ≠ .host (.keyDown k) ∧ s.nextTurn ≠ .host (.keyUp k)) : t.keys = s.keys := by
  rcases step_cases s with ⟨-, -, hpass⟩ | ⟨-, -, hraise⟩ | ⟨-, w, e, -, -, hraise⟩ | ⟨-, w, i, -, -, hexec⟩ |
    ⟨-, htick⟩ | ⟨m, hhost, hmove⟩
  · obtain rfl := Host.Outcome.next.inj (hpass.symm.trans ht)
    rfl
  · obtain rfl := (raise_eq_next _ _ _ t).1 (hraise.symm.trans ht)
    rfl
  · obtain rfl := (raise_eq_next _ _ _ t).1 (hraise.symm.trans ht)
    rfl
  · exact (exec_keys (hexec.symm.trans ht)).trans s.popTurn_keys
  · obtain ⟨dt, st, hframe⟩ := timerTick_frame s.popTurn
    obtain rfl := Host.Outcome.next.inj ((hframe ▸ htick).symm.trans ht)
    rfl
  · have hm : ∀ k, m ≠ .keyDown k ∧ m ≠ .keyUp k := fun k =>
      ⟨fun h => (hturn k).1 (h ▸ hhost), fun h => (hturn k).2 (h ▸ hhost)⟩
    exact (hostMove_keys (hmove.symm.trans ht) hm).trans s.popTurn_keys

/-- Settles O49: a key move's step is `setKey`, and every other step of any agent leaves the keys. -/
theorem keyMovesSetOneKey : Obligations.KeyMovesSetOneKey := by
  refine fun s k => ⟨fun hdown => key_move_sets_one_key ?_, fun hup => key_move_sets_one_key ?_, fun _ => step_keys⟩
  · rw [step_eq, hdown]
    rfl
  · rw [step_eq, hup]
    rfl

end Sys2Proof.Machine

/-! Proofs of 30_encoding.md: decoding and encoding are inverse to each other (R90 to R94, R100). -/

namespace Sys2Proof.Machine

/-! ### Decoding the remaining instructions' words -/

theorem decodeWord_wordNnn_call (nnn : Imm12) : decodeWord (wordNnn 2 nnn) = .ok (.call nnn) := by
  simp only [decodeWord, fieldClass_wordNnn 2 (by decide), fieldNnn_wordNnn 2 (by decide)]

theorem decodeWord_wordXkk_rndVxKk (x : Reg) (kk : Byte) : decodeWord (wordXkk 12 x kk) = .ok (.rndVxKk x kk) := by
  simp only [decodeWord, fieldClass_wordXkk 12 (by decide), fieldX_wordXkk 12 (by decide),
    fieldKk_wordXkk 12 (by decide)]

theorem decodeWord_wordXyn_drw (x y : Reg) (n : Rows) : decodeWord (wordXyn 13 x y n) = .ok (.drw x y n) := by
  simp only [decodeWord, fieldClass_wordXyn 13 (by decide), fieldX_wordXyn 13 (by decide),
    fieldY_wordXyn 13 (by decide), fieldN_wordXyn 13 (by decide)]

theorem decodeWord_wordXyn_subVxVy (x y : Reg) : decodeWord (wordXyn 8 x y 5) = .ok (.subVxVy x y) :=
  decodeWord_wordXyn_class8 x y 5 .subVxVy fun _ hn => by rw [decodeClass8, hn]; rfl

theorem decodeWord_wordXyn_shrVx (x y : Reg) : decodeWord (wordXyn 8 x y 6) = .ok (.shrVx x y) :=
  decodeWord_wordXyn_class8 x y 6 .shrVx fun _ hn => by rw [decodeClass8, hn]; rfl

/-- R94 rows 19 and 20: a class-E word is decoded by its `kk` to an instruction `op` on its `x`. -/
theorem decodeWord_wordXkk_classE (x : Reg) (kk : Byte) (op : Reg → Instr)
    (h : ∀ w, fieldKk w = kk → decodeClassE w = .ok (op (fieldX w))) :
    decodeWord (wordXkk 14 x kk) = .ok (op x) := by
  simp only [decodeWord, fieldClass_wordXkk 14 (by decide), h _ (fieldKk_wordXkk 14 (by decide) x kk),
    fieldX_wordXkk 14 (by decide)]

theorem decodeWord_wordXkk_skp (x : Reg) : decodeWord (wordXkk 14 x 0x9E#8) = .ok (.skp x) :=
  decodeWord_wordXkk_classE x 0x9E#8 .skp fun _ hkk => by rw [decodeClassE, hkk]; rfl

theorem decodeWord_wordXkk_sknp (x : Reg) : decodeWord (wordXkk 14 x 0xA1#8) = .ok (.sknp x) :=
  decodeWord_wordXkk_classE x 0xA1#8 .sknp fun _ hkk => by rw [decodeClassE, hkk]; rfl

theorem decodeWord_wordXkk_ldStVx (x : Reg) : decodeWord (wordXkk 15 x 0x18#8) = .ok (.ldStVx x) :=
  decodeWord_wordXkk_classF x 0x18#8 .ldStVx fun _ hkk => by rw [decodeClassF, hkk]; rfl

theorem decodeWord_wordXkk_ldBVx (x : Reg) : decodeWord (wordXkk 15 x 0x33#8) = .ok (.ldBVx x) :=
  decodeWord_wordXkk_classF x 0x33#8 .ldBVx fun _ hkk => by rw [decodeClassF, hkk]; rfl

theorem decodeWord_wordXkk_ldVxI (x : Reg) : decodeWord (wordXkk 15 x 0x65#8) = .ok (.ldVxI x) :=
  decodeWord_wordXkk_classF x 0x65#8 .ldVxI fun _ hkk => by rw [decodeClassF, hkk]; rfl

/-- Settles O1, by the decoding of each instruction's word; only SYS needs its operand to be well formed. -/
theorem decodeOfEncodeIsIdentity : Obligations.DecodeOfEncodeIsIdentity := by
  intro i hwf
  cases i with
  | cls | ret => decide
  | sys nnn =>
    simp only [Instr.wf, Bool.and_eq_true, bne_iff_ne] at hwf
    exact decodeWord_wordNnn_sys nnn hwf.1 hwf.2
  | jp nnn => exact decodeWord_wordNnn_jp nnn
  | call nnn => exact decodeWord_wordNnn_call nnn
  | seVxKk x kk => exact decodeWord_wordXkk_seVxKk x kk
  | sneVxKk x kk => exact decodeWord_wordXkk_sneVxKk x kk
  | ldVxKk x kk => exact decodeWord_wordXkk_ldVxKk x kk
  | addVxKk x kk => exact decodeWord_wordXkk_addVxKk x kk
  | ldVxVy x y => exact decodeWord_wordXyn_ldVxVy x y
  | andVxVy x y => exact decodeWord_wordXyn_andVxVy x y
  | xorVxVy x y => exact decodeWord_wordXyn_xorVxVy x y
  | addVxVy x y => exact decodeWord_wordXyn_addVxVy x y
  | subVxVy x y => exact decodeWord_wordXyn_subVxVy x y
  | shrVx x y => exact decodeWord_wordXyn_shrVx x y
  | ldINnn nnn => exact decodeWord_wordNnn_ldINnn nnn
  | rndVxKk x kk => exact decodeWord_wordXkk_rndVxKk x kk
  | drw x y n => exact decodeWord_wordXyn_drw x y n
  | skp x => exact decodeWord_wordXkk_skp x
  | sknp x => exact decodeWord_wordXkk_sknp x
  | ldVxDt x => exact decodeWord_wordXkk_ldVxDt x
  | ldVxK x => exact decodeWord_wordXkk_ldVxK x
  | ldDtVx x => exact decodeWord_wordXkk_ldDtVx x
  | ldStVx x => exact decodeWord_wordXkk_ldStVx x
  | addIVx x => exact decodeWord_wordXkk_addIVx x
  | ldBVx x => exact decodeWord_wordXkk_ldBVx x
  | ldVxI x => exact decodeWord_wordXkk_ldVxI x

/-! ### Encoding what was decoded -/

/-- A word is what its fields, the sub-opcode `n` being known, encode to (R92, format XYO). -/
theorem wordXyn_fields_n {w : Word} {c : Nat} {n : Fin 16} (hc : fieldClass w = c) (hn : (fieldN w).val = n.val) :
    wordXyn c (fieldX w) (fieldY w) n = w := by
  rw [← Fin.ext hn, wordXyn_fields w c hc]

/-- A word is what its fields, the low byte being known, encode to (R92, format XOO). -/
theorem wordXkk_fields_kk {w : Word} {c : Nat} {kk : Byte} (hc : fieldClass w = c)
    (hkk : (fieldKk w).toNat = kk.toNat) : wordXkk c (fieldX w) kk = w := by
  rw [← BitVec.eq_of_toNat_eq hkk, wordXkk_fields w c hc]

/-- Class 0: what is not the word of CLS or RET is a well-formed SYS (R94 row 3). -/
theorem encode_decodeClass0 {w : Word} (hc : fieldClass w = 0) :
    (decodeClass0 w).wf = true ∧ encode (decodeClass0 w) = w := by
  unfold decodeClass0
  split
  case isTrue hcls => exact ⟨rfl, hcls.symm⟩
  case isFalse hcls =>
    split
    case isTrue hret => exact ⟨rfl, hret.symm⟩
    case isFalse hret =>
      have hword : wordNnn 0 (fieldNnn w) = w := wordNnn_fields w 0 hc
      refine ⟨?_, hword⟩
      simp only [Instr.wf, Bool.and_eq_true, bne_iff_ne]
      exact ⟨fun h => hcls (hword.symm.trans (congrArg (wordNnn 0) h)),
        fun h => hret (hword.symm.trans (congrArg (wordNnn 0) h))⟩

theorem encode_of_decodeClass8_ok {w : Word} {i : Instr} (hc : fieldClass w = 8) (h : decodeClass8 w = .ok i) :
    i.wf = true ∧ encode i = w := by
  unfold decodeClass8 at h
  split at h <;> cases h
  all_goals exact ⟨rfl, wordXyn_fields_n hc ‹_›⟩

theorem encode_of_decodeClassE_ok {w : Word} {i : Instr} (hc : fieldClass w = 14) (h : decodeClassE w = .ok i) :
    i.wf = true ∧ encode i = w := by
  unfold decodeClassE at h
  split at h <;> cases h
  all_goals exact ⟨rfl, wordXkk_fields_kk hc ‹_›⟩

theorem encode_of_decodeClassF_ok {w : Word} {i : Instr} (hc : fieldClass w = 15) (h : decodeClassF w = .ok i) :
    i.wf = true ∧ encode i = w := by
  unfold decodeClassF at h
  split at h <;> cases h
  all_goals exact ⟨rfl, wordXkk_fields_kk hc ‹_›⟩

/-- Settles O2, class by class: a word is rebuilt from the fields that the decoder keeps. -/
theorem encodeOfDecodeIsIdentity : Obligations.EncodeOfDecodeIsIdentity := by
  intro w i h
  unfold decodeWord at h
  split at h
  case h_1 hc => cases h; exact encode_decodeClass0 hc
  case h_2 hc | h_3 hc | h_9 hc => cases h; exact ⟨rfl, wordNnn_fields w _ hc⟩
  case h_4 hc | h_5 hc | h_6 hc | h_7 hc | h_10 hc => cases h; exact ⟨rfl, wordXkk_fields w _ hc⟩
  case h_8 hc => exact encode_of_decodeClass8_ok hc h
  case h_11 hc => cases h; exact ⟨rfl, wordXyn_fields w _ hc⟩
  case h_12 hc => exact encode_of_decodeClassE_ok hc h
  case h_13 hc => exact encode_of_decodeClassF_ok hc h
  case h_14 => cases h

/-- The word of an instruction read from memory is the word that was there (R224's FIW, log 13). -/
theorem encode_of_decodeWord_ok {w : Word} {i : Instr} (h : decodeWord w = .ok i) : encode i = w :=
  (encodeOfDecodeIsIdentity w i h).2

/-- Settles O5, by running the decoder on the ten words. -/
theorem sampleWordsDecode : Obligations.SampleWordsDecode := by
  unfold Obligations.SampleWordsDecode
  decide

end Sys2Proof.Machine

/-! What an instruction does, part by part: the state in which it completes (10_state.md R22 to R35 and the meanings of
41_alu.md to 44_memory.md), and where it faults instead (60_exceptions.md R221). -/

namespace Sys2Proof.Machine

/-! ### The parts of the state after an instruction that completes -/

/-- V after an instruction (R22). -/
def vAfter (s : State) : Instr → Regs
  | .ldVxKk x kk => s.v.set x.val kk
  | .addVxKk x kk => s.v.set x.val (s.reg x + kk)
  | .ldVxVy x y => s.v.set x.val (s.reg y)
  | .andVxVy x y => s.v.set x.val (s.reg x &&& s.reg y)
  | .xorVxVy x y => s.v.set x.val (s.reg x ^^^ s.reg y)
  | .addVxVy x y => (s.v.set VF.val (addFlag (s.reg x) (s.reg y))).set x.val (s.reg x + s.reg y)
  | .subVxVy x y => (s.v.set VF.val (subFlag (s.reg x) (s.reg y))).set x.val (s.reg x - s.reg y)
  | .shrVx x _ => (s.v.set VF.val (shrFlag (s.reg x))).set x.val (s.reg x >>> 1)
  | .rndVxKk x kk => s.v.set x.val (Config.draw8 s.draws &&& kk)
  | .drw x y n =>
    s.v.set VF.val
      (collisionFlag (drawSprite (s.spriteX x) (s.spriteY y) (operandBytes s n.val) (s.disp, false)).2)
  | .ldVxDt x => s.v.set x.val s.dt
  | .ldVxK x => if s.keys = 0#16 then s.v else s.v.set x.val (BitVec.ofNat 8 (keySelect s.keys).val)
  | .ldVxI x => Regs.load s.v 0 (operandBytes s (x.val + 1))
  | _ => s.v

/-- I after an instruction (R24). -/
def iAfter (s : State) : Instr → Word
  | .ldINnn nnn => zext16 nnn
  | .addIVx x => s.i + (s.reg x).setWidth 16
  | _ => s.i

/-- SP after an instruction (R30). -/
def spAfter (s : State) : Instr → Fin 17
  | .call _ => s.sp + 1
  | .ret => s.sp - 1
  | _ => s.sp

/-- The stack after an instruction (R29). -/
def stackAfter (s : State) : Instr → Stack
  | .call _ => s.stack.setIfInBounds s.sp.val s.nextPC
  | _ => s.stack

/-- DT after an instruction (R31). -/
def dtAfter (s : State) : Instr → Byte
  | .ldDtVx x => s.reg x
  | _ => s.dt

/-- ST after an instruction (R32). -/
def stAfter (s : State) : Instr → Byte
  | .ldStVx x => s.reg x
  | _ => s.st

/-- Memory after an instruction (R34). -/
def memAfter (s : State) : Instr → Memory
  | .ldBVx x => s.mem.writeBytes s.i.toNat (decimalBytes (s.reg x))
  | _ => s.mem

/-- The display after an instruction (R35). -/
def dispAfter (s : State) : Instr → Display
  | .cls => Display.clear
  | .drw x y n => (drawSprite (s.spriteX x) (s.spriteY y) (operandBytes s n.val) (s.disp, false)).1
  | _ => s.disp

/-- The count of draws after an instruction (log 6). -/
def drawsAfter (s : State) : Instr → Nat
  | .rndVxKk _ _ => s.draws + 1
  | _ => s.draws

/-- The state in which an instruction completes: PC is R26's; the fault record, KEYS, RUN and the schedule are kept. -/
def completed (i : Instr) (s : State) : State :=
  { s with
    v := vAfter s i, i := iAfter s i, pc := newPC s i, sp := spAfter s i, stack := stackAfter s i, dt := dtAfter s i,
    st := stAfter s i, mem := memAfter s i, disp := dispAfter s i, draws := drawsAfter s i }

/-! ### The meaning of an instruction, by its fault cause -/

theorem completed_call (s : State) (nnn : Imm12) (h : s.sp.val < 16) :
    completed (.call nnn) s =
      ({ s with sp := ⟨s.sp.val + 1, by omega⟩, stack := s.stack.set s.sp.val s.nextPC } : State).setPc
        (zext16 nnn) := by
  have hsp : s.sp + 1 = ⟨s.sp.val + 1, by omega⟩ := by
    apply Fin.ext
    simp only [Fin.val_add, Fin.val_one]
    omega
  have hstack : s.stack.setIfInBounds s.sp.val s.nextPC = s.stack.set s.sp.val s.nextPC := by
    apply Vector.ext
    intro k hk
    simp only [Vector.getElem_setIfInBounds, Vector.getElem_set]
  simp only [completed, vAfter, iAfter, newPC, spAfter, stackAfter, dtAfter, stAfter, memAfter, dispAfter, drawsAfter,
    hsp, hstack, ← zext16_eq]
  rfl

theorem completed_ret (s : State) (n : Fin 16) (h : s.sp.val = n.val + 1) :
    completed .ret s = ({ s with sp := ⟨n.val, by omega⟩ } : State).setPc (s.slot n) := by
  have hsp : s.sp - 1 = ⟨n.val, by omega⟩ := by
    apply Fin.ext
    simp only [Fin.sub_def, Fin.val_one]
    omega
  simp only [completed, vAfter, iAfter, spAfter, stackAfter, dtAfter, stAfter, memAfter, dispAfter, drawsAfter, hsp,
    newPC_ret s n h]
  rfl

/-- Most instructions end in `advance`: PC + 2, all else as their meaning leaves it. -/
theorem exec_eq_completed_of_advance {i : Instr} {s t : State} (hexec : exec i s = .next t.advance)
    (hparts : completed i s = { t with pc := t.pcPlus 2 }) : exec i s = .next (completed i s) := by
  rw [hexec, hparts, State.advance_eq_pcPlus]

/-- The skips: PC alone changes. -/
theorem exec_eq_completed_of_skipIf {i : Instr} {s : State} {c : Bool} (hexec : exec i s = .next (s.skipIf c))
    (hparts : completed i s = { s with pc := newPC s i }) (hpc : newPC s i = (s.skipIf c).pc) :
    exec i s = .next (completed i s) := by
  rw [hexec, hparts, hpc]
  rfl

/-- R220, R221: an instruction whose row of the fault table applies raises that fault with its own word, and every
other one completes. -/
theorem exec_faults_or_completes (i : Instr) (s : State) :
    (∃ k, faultCause s i = some k ∧ exec i s = raise k (encode i) s) ∨
    (faultCause s i = none ∧ exec i s = .next (completed i s)) := by
  have hsp := s.sp.isLt
  cases i with
  | call nnn =>
    by_cases h : s.sp.val = 16
    · exact .inl ⟨_, if_pos h, exec_call_full nnn s h⟩
    · have hlt : s.sp.val < 16 := by omega
      exact .inr ⟨if_neg h, by rw [exec_call_push nnn s hlt, completed_call s nnn hlt]⟩
  | ret =>
    by_cases h : s.sp.val = 0
    · exact .inl ⟨_, if_pos h, exec_ret_empty s h⟩
    · have hn : s.sp.val = (⟨s.sp.val - 1, by omega⟩ : Fin 16).val + 1 := by simp only; omega
      exact .inr ⟨if_neg h, by rw [exec_ret_pop s _ hn, completed_ret s _ hn]⟩
  | drw x y n =>
    by_cases h : n.val = 0 ∨ s.i.toNat + n.val ≤ 4096
    · exact .inr ⟨if_neg (by omega), exec_eq_completed_of_advance (exec_drw_draw x y n s h) rfl⟩
    · exact .inl ⟨_, if_pos (by omega), exec_drw_out x y n s (by omega) (by omega)⟩
  | ldBVx x =>
    by_cases h : s.i.toNat + 2 > 4095
    · exact .inl ⟨_, if_pos h, exec_ldBVx_out x s h⟩
    · exact .inr ⟨if_neg h, exec_eq_completed_of_advance (exec_ldBVx_store x s (by omega)) rfl⟩
  | ldVxI x =>
    by_cases h : s.i.toNat + x.val > 4095
    · exact .inl ⟨_, if_pos h, exec_ldVxI_out x s h⟩
    · exact .inr ⟨if_neg h, exec_eq_completed_of_advance (exec_ldVxI_load x s (by omega)) rfl⟩
  | skp x =>
    by_cases h : (s.reg x).toNat > 15
    · exact .inl ⟨_, if_pos h, exec_skp_out x s h⟩
    · have hk : (s.reg x).toNat = (⟨(s.reg x).toNat, by omega⟩ : Key).val := rfl
      exact .inr ⟨if_neg h, exec_eq_completed_of_skipIf (exec_skp_test x s _ hk) rfl (newPC_skp s x _ hk)⟩
  | sknp x =>
    by_cases h : (s.reg x).toNat > 15
    · exact .inl ⟨_, if_pos h, exec_sknp_out x s h⟩
    · have hk : (s.reg x).toNat = (⟨(s.reg x).toNat, by omega⟩ : Key).val := rfl
      exact .inr ⟨if_neg h, exec_eq_completed_of_skipIf (exec_sknp_test x s _ hk) rfl (newPC_sknp s x _ hk)⟩
  | ldVxK x =>
    refine .inr ⟨rfl, ?_⟩
    by_cases h : s.keys = 0#16
    · rw [exec_ldVxK_wait x s h]
      simp only [completed, vAfter, newPC, if_pos h]
      rfl
    · refine exec_eq_completed_of_advance (exec_ldVxK_load x s h) ?_
      simp only [completed, vAfter, newPC, if_neg h]
      rfl
  | seVxKk x kk =>
    exact .inr ⟨rfl, exec_eq_completed_of_skipIf (exec_seVxKk x kk s) rfl (newPC_seVxKk s x kk)⟩
  | sneVxKk x kk =>
    exact .inr ⟨rfl, exec_eq_completed_of_skipIf (exec_sneVxKk x kk s) rfl (newPC_sneVxKk s x kk)⟩
  | jp nnn =>
    refine .inr ⟨rfl, ?_⟩
    rw [exec_jp, zext16_eq]
    rfl
  | cls | sys | ldVxKk | addVxKk | ldVxVy | andVxVy | xorVxVy | addVxVy | subVxVy | shrVx | ldINnn | rndVxKk
  | ldVxDt | ldDtVx | ldStVx | addIVx => exact .inr ⟨rfl, exec_eq_completed_of_advance rfl rfl⟩

theorem exec_of_faultCause_some {i : Instr} {s : State} {k : FaultKind} (h : faultCause s i = some k) :
    exec i s = raise k (encode i) s := by
  rcases exec_faults_or_completes i s with ⟨k', hk, hraise⟩ | ⟨hnone, -⟩
  · obtain rfl : k' = k := Option.some.inj (hk.symm.trans h)
    exact hraise
  · cases hnone.symm.trans h

theorem exec_of_faultCause_none {i : Instr} {s : State} (h : faultCause s i = none) :
    exec i s = .next (completed i s) := by
  rcases exec_faults_or_completes i s with ⟨k, hk, -⟩ | ⟨-, hnext⟩
  · cases hk.symm.trans h
  · exact hnext

/-- What the state after an instruction can be. -/
theorem exec_next_cases {i : Instr} {s t : State} (h : exec i s = .next t) :
    (∃ k, faultCause s i = some k ∧ t = s.raised k (encode i)) ∨ (faultCause s i = none ∧ t = completed i s) := by
  rcases exec_faults_or_completes i s with ⟨k, hk, hraise⟩ | ⟨hnone, hnext⟩
  · exact .inl ⟨k, hk, (raise_eq_next k _ s t).1 (hraise.symm.trans h)⟩
  · exact .inr ⟨hnone, Host.Outcome.next.inj (h.symm.trans hnext)⟩

/-- An instruction commutes with a change of state that its fault cause and its completed state commute with, and that
fault entry commutes with. -/
theorem exec_commutes {i : Instr} {s : State} {f : State → State} (hcause : faultCause (f s) i = faultCause s i)
    (hraised : ∀ k iw, (f s).raised k iw = f (s.raised k iw)) (hcompleted : completed i (f s) = f (completed i s)) :
    exec i (f s) = mapNext f (exec i s) := by
  rcases exec_faults_or_completes i s with ⟨k, hk, hraise⟩ | ⟨hnone, hnext⟩
  · rw [exec_of_faultCause_some (hcause.trans hk), hraise, raise, hraised]
    rfl
  · rw [exec_of_faultCause_none (hcause.trans hnone), hnext, hcompleted]
    rfl

end Sys2Proof.Machine

/-! Proofs of 60_exceptions.md and of the CPU step: fetch, decode, execute (R97), and where each part faults (R220 to
R225). -/

namespace Sys2Proof.Machine

/-! ### The step of a ready CPU agent (R97) -/

theorem step_of_ready {s : State} (h : s.CpuReady) : step s = cpuStep s.popTurn := by
  rw [step_eq, h.1]
  rfl

theorem State.cpuEnabled_iff (s : State) : s.cpuEnabled = true ↔ s.run = true ∧ s.fault = false := by
  simp [State.cpuEnabled]

theorem State.CpuReady.cpuEnabled {s : State} (h : s.CpuReady) : s.popTurn.cpuEnabled = true :=
  s.popTurn.cpuEnabled_iff.2 h.2

theorem step_of_fetchWord_some {s : State} {w : Word} (h : s.CpuReady) (hfetch : s.fetchWord = some w) :
    step s = runWord w s.popTurn := by
  have hpop : s.popTurn.fetchWord = some w := hfetch
  simp only [step_of_ready h, cpuStep, h.cpuEnabled, if_true, hpop]

theorem step_of_fetchWord_none {s : State} (h : s.CpuReady) (hfetch : s.fetchWord = none) :
    step s = raise .memRange 0x0000#16 s.popTurn := by
  have hpop : s.popTurn.fetchWord = none := hfetch
  simp only [step_of_ready h, cpuStep, h.cpuEnabled, if_true, hpop]

/-- Settles O6: the fetch gives the two bytes' word, and running it is `exec`. -/
theorem stepRunsTheDecodedInstruction : Obligations.StepRunsTheDecodedInstruction := by
  intro s i hready hpc hdecode
  rw [step_of_fetchWord_some hready ((fetchWord_eq_some s _).2 ⟨hpc, rfl⟩)]
  simp only [runWord, wordOfBytes, hdecode]

/-- Settles O7: no word can be fetched there, which raises MemRange. -/
theorem fetchOutsideMemoryRaisesMemRange : Obligations.FetchOutsideMemoryRaisesMemRange := fun s hready hpc =>
  step_of_fetchWord_none hready ((fetchWord_eq_none s).2 hpc)

/-- Settles O8, by O4: the fetched word is in R95's column, and running it raises UnhandledInstruction. -/
theorem unhandledWordStepLatchesTheRecord : Obligations.UnhandledWordStepLatchesTheRecord := by
  intro s w hready hpc hw hunhandled
  rw [step_of_fetchWord_some hready ((fetchWord_eq_some s w).2 ⟨hpc, hw⟩),
    (unhandledWordsAreExactlyTheColumn w).2 hunhandled]
  rfl

/-! ### Faults -/

/-- Settles O9: fault entry is `State.raised`, and each cause has its number. -/
theorem raiseWritesTheRecordOnly : Obligations.RaiseWritesTheRecordOnly := by
  refine fun s iw k => ⟨s.raised k iw, rfl, rfl, ?_⟩
  cases k <;> rfl

/-- Settles O13: an instruction faults as tabled or completes, and completing keeps the record. -/
theorem execFaultsExactlyAsTabled : Obligations.ExecFaultsExactlyAsTabled := fun i s hfault =>
  ⟨fun hnone => ⟨completed i s, exec_of_faultCause_none hnone, hfault, rfl, rfl, rfl⟩,
    fun _ hcause => exec_of_faultCause_some hcause⟩

/-- An instruction that latches a fault writes the record with its own word and nothing else (R224). -/
theorem eq_raised_of_exec_faults {i : Instr} {s t : State} (hfault : s.fault = false) (h : exec i s = .next t)
    (ht : t.fault = true) : ∃ k, t = s.raised k (encode i) := by
  rcases exec_next_cases h with ⟨k, -, hraised⟩ | ⟨-, rfl⟩
  · exact ⟨k, hraised⟩
  · exact absurd (hfault.symm.trans ht) Bool.false_ne_true

/-- Settles O10, by what a step can be: only the CPU agent's fetch, decode and execute raise, each with the PC and the
word fetched, which is the instruction's own (O2). -/
theorem faultsArePrecise : Obligations.FaultsArePrecise := by
  intro s t hfault ht htfault
  have hclear : ¬ t.fault = false := fun h => Bool.false_ne_true (h.symm.trans htfault)
  rcases step_cases s with ⟨-, -, hpass⟩ | ⟨hready, hfetch, hraise⟩ | ⟨hready, w, e, hfetch, -, hraise⟩ |
    ⟨hready, w, i, hfetch, hdecode, hexec⟩ | ⟨-, htick⟩ | ⟨m, -, hmove⟩
  · obtain rfl := Host.Outcome.next.inj (hpass.symm.trans ht)
    exact absurd hfault hclear
  · obtain rfl := (raise_eq_next _ _ _ t).1 (hraise.symm.trans ht)
    refine ⟨hready, ?_⟩
    rw [hfetch]
    rfl
  · obtain rfl := (raise_eq_next _ _ _ t).1 (hraise.symm.trans ht)
    refine ⟨hready, ?_⟩
    rw [hfetch]
    rfl
  · obtain ⟨k, rfl⟩ := eq_raised_of_exec_faults (s := s.popTurn) hfault (hexec.symm.trans ht) htfault
    refine ⟨hready, ?_⟩
    rw [hfetch, encode_of_decodeWord_ok hdecode]
    rfl
  · obtain ⟨dt, st, hframe⟩ := timerTick_frame s.popTurn
    obtain rfl := Host.Outcome.next.inj ((hframe ▸ htick).symm.trans ht)
    exact absurd hfault hclear
  · rcases hostMove_rebuilds_or_frames (hmove.symm.trans ht) with ⟨rom, -, -, rfl⟩ | ⟨keys, run, aborted, rfl⟩
    · exact absurd rfl hclear
    · exact absurd hfault hclear

/-! ### Agents that have no step (R43) -/

theorem cpuStep_of_disabled {s : State} (h : s.cpuEnabled = false) : cpuStep s = .next s := by simp [cpuStep, h]

theorem timerTick_of_stopped {s : State} (h : s.run = false) : timerTick s = s := by
  simp [timerTick, State.timerEnabled, h]

/-- Settles O12: the CPU agent needs RUN = 1 and FAULT = 0, the TIMER agent RUN = 1. -/
theorem disabledAgentsChangeNothing : Obligations.DisabledAgentsChangeNothing := by
  refine fun s => ⟨fun hoff hturn => ?_, fun hrun hturn => ?_⟩
  · have hdisabled : s.popTurn.cpuEnabled = false := by
      rcases hoff with hrun | hfault
      · simp [State.cpuEnabled, hrun]
      · simp [State.cpuEnabled, hfault]
    rw [step_eq, hturn]
    exact cpuStep_of_disabled hdisabled
  · rw [step_eq, hturn]
    exact congrArg Host.Outcome.next (timerTick_of_stopped (s := s.popTurn) hrun)

end Sys2Proof.Machine

/-! Proofs of 10_state.md: the reset state (R40), the machine's invariant (R42, R239) and the bound of R28. -/

namespace Sys2Proof.Machine

/-! ### What a step can be, by its next state -/

/-- The step of one agent that answers a next state: a CPU turn that passes, faults or completes an instruction, a
tick, Init, or another host move. -/
theorem agentStep_next_cases {a : Turn} {s t : State} (h : agentStep a s = .next t) :
    (a = .cpu ∧ s.cpuEnabled = false ∧ t = s) ∨
    (a = .cpu ∧ s.cpuEnabled = true ∧ ∃ k iw, t = s.raised k iw) ∨
    (∃ i, Executes a s i ∧ faultCause s i = none ∧ t = completed i s) ∨
    (a = .tick ∧ t = timerTick s) ∨
    (∃ m, a = .host m ∧ hostMove m s = .next t) := by
  cases a with
  | tick => exact .inr (.inr (.inr (.inl ⟨rfl, (Host.Outcome.next.inj h).symm⟩)))
  | host m => exact .inr (.inr (.inr (.inr ⟨m, rfl, h⟩)))
  | cpu =>
    rcases cpuStep_cases s with ⟨hoff, hpass⟩ |
      ⟨hon, ⟨-, hraise⟩ | ⟨w, e, -, -, hraise⟩ | ⟨w, i, hfetch, hdecode, hexec⟩⟩
    · exact .inl ⟨rfl, hoff, Host.Outcome.next.inj (h.symm.trans hpass)⟩
    · exact .inr (.inl ⟨rfl, hon, _, _, (raise_eq_next _ _ s t).1 (hraise.symm.trans h)⟩)
    · exact .inr (.inl ⟨rfl, hon, _, _, (raise_eq_next _ _ s t).1 (hraise.symm.trans h)⟩)
    · rcases exec_next_cases (hexec.symm.trans h) with ⟨k, -, hraised⟩ | ⟨hnone, hcompleted⟩
      · exact .inr (.inl ⟨rfl, hon, _, _, hraised⟩)
      · exact .inr (.inr (.inl ⟨i, ⟨rfl, hon, w, hfetch, hdecode⟩, hnone, hcompleted⟩))

/-- An instruction is executed only where a word can be fetched (R63). -/
theorem Executes.pc_le {a : Turn} {s : State} {i : Instr} (h : Executes a s i) : s.pc.toNat ≤ 4094 := by
  obtain ⟨-, -, w, hfetch, -⟩ := h
  exact ((fetchWord_eq_some s w).1 hfetch).1

/-! ### Reset (R40) -/

@[simp] theorem reset_reg (r : Reg) : State.reset.reg r = 0#8 := by simp [State.reset, State.reg]

@[simp] theorem reset_slot (n : Fin 16) : State.reset.slot n = 0x0000#16 := by simp [State.reset, State.slot]

/-- Settles O54: every register, slot, byte and cell is that of the empty machine, and the rest stands in the
definition. -/
theorem resetHoldsTheInitValues : Obligations.ResetHoldsTheInitValues :=
  ⟨reset_reg, rfl, rfl, rfl, reset_slot, rfl, rfl, rfl, Memory.read_nil, Display.cell_clear, rfl, rfl, rfl, rfl, rfl⟩

/-! ### The machine's invariant -/

/-- The record that fault entry leaves is well formed (R220, R224). -/
theorem State.recordWf_raised (s : State) (k : FaultKind) (iw : Word) : (s.raised k iw).RecordWf :=
  ⟨fun h => absurd h (by simp), fun _ => ⟨(code_range k).1, (code_range k).2, rfl⟩⟩

/-- A record that is clear is well formed. -/
theorem State.recordWf_of_clear {s : State} (hfault : s.fault = false) (hcode : s.fcode = 0#3) (hpc : s.fpc = 0x0000#16)
    (hiw : s.fiw = 0x0000#16) : s.RecordWf :=
  ⟨fun _ => ⟨hcode, hpc, hiw⟩, fun h => absurd (hfault.symm.trans h) Bool.false_ne_true⟩

theorem State.Inv.raised {s : State} (h : s.Inv) (k : FaultKind) (iw : Word) : (s.raised k iw).Inv := by
  obtain ⟨hmem, -, hrun⟩ := h
  exact ⟨hmem, s.recordWf_raised k iw, hrun⟩

@[simp] theorem decimalBytes_length (v : Byte) : (decimalBytes v).length = 3 := rfl

/-- R210: an LD B,Vx that does not fault writes inside memory, and no other instruction writes it. -/
theorem memAfter_wf {s : State} {i : Instr} (h : s.mem.wf) (hnone : faultCause s i = none) : (memAfter s i).wf := by
  cases i with
  | ldBVx x =>
    have hin : ¬ s.i.toNat + 2 > 4095 := fun hout => by simp [faultCause, hout] at hnone
    exact Memory.writeBytes_wf s.mem h s.i.toNat _ (by simp only [decimalBytes_length, Config.memSize]; omega)
  | _ => exact h

/-- A CPU that executes has FAULT = 0, so the record is clear, and completing leaves it so. -/
theorem State.Inv.completed {s : State} {i : Instr} (h : s.Inv) (hfault : s.fault = false)
    (hnone : faultCause s i = none) : (completed i s).Inv := by
  obtain ⟨hmem, hrecord, hrun⟩ := h
  obtain ⟨hcode, hpc, hiw⟩ := hrecord.1 hfault
  exact ⟨memAfter_wf hmem hnone, State.recordWf_of_clear hfault hcode hpc hiw, hrun⟩

theorem State.Inv.timerTick {s : State} (h : s.Inv) : (timerTick s).Inv := by
  obtain ⟨dt, st, hframe⟩ := timerTick_frame s
  rw [hframe]
  exact h

/-- Init leaves the image alone in memory and everything else as at reset (R260). -/
theorem State.initialised_inv {s : State} {rom : List Byte} (hlen : rom.length ≤ Config.romMax) :
    (s.initialised rom).Inv :=
  ⟨romImage_wf rom hlen, State.recordWf_of_clear rfl rfl rfl rfl, fun h => absurd h Bool.false_ne_true⟩

/-- R236, R239: Start is not moved after Abort, and Abort stops the machine. -/
theorem State.Inv.hostMove {m : HostMove} {s t : State} (h : s.Inv) (ht : hostMove m s = .next t) : t.Inv := by
  cases m with
  | init rom =>
    obtain ⟨-, hlen, rfl⟩ := hostInit_eq_next.1 ht
    exact State.initialised_inv hlen
  | start =>
    obtain ⟨-, haborted, rfl⟩ := hostStart_eq_next.1 ht
    obtain ⟨hmem, hrecord, -⟩ := h
    exact ⟨hmem, hrecord, fun _ => haborted⟩
  | abort =>
    obtain ⟨-, rfl⟩ := hostAbort_eq_next.1 ht
    obtain ⟨hmem, hrecord, -⟩ := h
    exact ⟨hmem, hrecord, fun hrun => absurd hrun Bool.false_ne_true⟩
  | keyDown | keyUp | readDisplay | readTimers | readFault =>
    obtain rfl := Host.Outcome.next.inj ht
    exact h

/-- Every step of every agent keeps the invariant, whatever the schedule. -/
theorem agentStep_inv {a : Turn} {s t : State} (h : s.Inv) (ht : agentStep a s = .next t) : t.Inv := by
  rcases agentStep_next_cases ht with ⟨-, -, rfl⟩ | ⟨-, -, k, iw, rfl⟩ | ⟨i, hexecutes, hnone, rfl⟩ | ⟨-, rfl⟩ |
    ⟨m, -, hmove⟩
  · exact h
  · exact h.raised k iw
  · obtain ⟨-, hon, -⟩ := hexecutes
    exact h.completed (s.cpuEnabled_iff.1 hon).2 hnone
  · exact h.timerTick
  · exact h.hostMove hmove

/-- Settles O56: a step is one agent's step, and the invariant does not speak of the turns. -/
theorem stepKeepsTheInvariant : Obligations.StepKeepsTheInvariant := fun s _ h ht =>
  agentStep_inv (s := s.popTurn) h ht

/-! ### The bound of R28 -/

theorem State.pcPlus_toNat (s : State) (k : Nat) : (s.pcPlus k).toNat = (s.pc.toNat + k) % 65536 := by
  simp [State.pcPlus]

/-- A jump target is a 12-bit number. -/
theorem ofNat_nnn_toNat_le (nnn : Imm12) : (BitVec.ofNat 16 nnn.toNat).toNat ≤ 4095 := by
  have := nnn.isLt
  rw [← zext16_eq, zext16_toNat]
  omega

/-- From a PC at which a word can be fetched, no new PC exceeds SkipPC's bound, and a return address is bounded by the
stack's. -/
theorem newPC_toNat_le {s : State} (i : Instr) (hpc : s.pc.toNat ≤ 4094)
    (hstack : ∀ n : Fin 16, (s.slot n).toNat ≤ 4096) :
    (newPC s i).toNat ≤ 4098 := by
  have hnext : (s.pcPlus 2).toNat ≤ 4098 := by rw [s.pcPlus_toNat]; omega
  have hskip : (s.pcPlus 4).toNat ≤ 4098 := by rw [s.pcPlus_toNat]; omega
  cases i with
  | jp nnn | call nnn => exact (ofNat_nnn_toNat_le nnn).trans (by decide)
  | ret =>
    have hsp := s.sp.isLt
    have hslot := hstack ⟨s.sp.val - 1, by omega⟩
    rw [s.slot_eq_getD] at hslot
    exact hslot.trans (by decide)
  | seVxKk x kk | sneVxKk x kk | skp x | sknp x =>
    simp only [newPC]
    split <;> assumption
  | ldVxK x =>
    simp only [newPC]
    split
    · omega
    · exact hnext
  | _ => exact hnext

/-- The one word that is pushed is NextPC (R123). -/
theorem completed_slot_toNat_le {s : State} (i : Instr) (hpc : s.pc.toNat ≤ 4094)
    (hstack : ∀ n : Fin 16, (s.slot n).toNat ≤ 4096) (n : Fin 16) : ((completed i s).slot n).toNat ≤ 4096 := by
  cases i with
  | call nnn =>
    have hpush : (completed (.call nnn) s).slot n = if s.sp.val = n.val then s.nextPC else s.slot n :=
      Vector.getElem_setIfInBounds n.isLt
    rw [hpush]
    split
    · rw [s.nextPC_toNat]
      omega
    · exact hstack n
  | _ => exact hstack n

theorem State.initialised_pcBounded (s : State) (rom : List Byte) : (s.initialised rom).PcBounded := by
  refine ⟨(by decide : (0x0200#16).toNat ≤ 4098), fun n => ?_⟩
  have hslot : (s.initialised rom).slot n = 0x0000#16 := reset_slot n
  rw [hslot]
  decide

/-- Every step of every agent keeps the bound, whatever the schedule. -/
theorem agentStep_pcBounded {a : Turn} {s t : State} (h : s.PcBounded) (ht : agentStep a s = .next t) :
    t.PcBounded := by
  rcases agentStep_next_cases ht with ⟨-, -, rfl⟩ | ⟨-, -, k, iw, rfl⟩ | ⟨i, hexecutes, -, rfl⟩ | ⟨-, rfl⟩ |
    ⟨m, -, hmove⟩
  · exact h
  · exact h
  · exact ⟨newPC_toNat_le i hexecutes.pc_le h.2, completed_slot_toNat_le i hexecutes.pc_le h.2⟩
  · obtain ⟨dt, st, hframe⟩ := timerTick_frame s
    rw [hframe]
    exact h
  · rcases hostMove_rebuilds_or_frames hmove with ⟨rom, -, -, rfl⟩ | ⟨keys, run, aborted, rfl⟩
    · exact s.initialised_pcBounded rom
    · exact h

/-- Settles O57: a step is one agent's step, and the bound does not speak of the turns. -/
theorem stepKeepsThePcBound : Obligations.StepKeepsThePcBound := fun s _ h ht =>
  agentStep_pcBounded (s := s.popTurn) h ht

/-- Settles O55: the reset state is what Init leaves with the empty image. -/
theorem invariantsHoldAtReset : Obligations.InvariantsHoldAtReset :=
  ⟨State.initialised_inv (s := State.reset) (rom := []) (by decide), State.reset.initialised_pcBounded []⟩

end Sys2Proof.Machine

/-! Proofs of 40_control_flow.md and 41_alu.md: CALL (R123), SUB, SHR and the readings of VF (R146, R147, U6), RND
(R151). -/

namespace Sys2Proof.Machine

/-! ### CALL and RET -/

/-- R123: CALL stores NextPC in the slot above SP, and keeps the others. -/
theorem slot_push (s : State) (hlt : s.sp.val < 16) (m : Fin 16) :
    ({ s with stack := s.stack.set s.sp.val s.nextPC } : State).slot m =
      if m.val = s.sp.val then s.pcPlus 2 else s.slot m := by
  rw [slot_set s s.sp.val hlt, s.pcPlus_two]

/-- Settles O18, by what CALL answers below sixteen addresses and at sixteen. -/
theorem callPushesNextPc : Obligations.CallPushesNextPc := by
  intro nnn s
  have hword : BitVec.ofNat 16 (0x2000 + nnn.toNat) = encode (.call nnn) := pattern_nnn 0x2000 2 nnn rfl
  refine ⟨?_, fun n hn => ?_, fun hfull => ?_⟩
  · rw [hword]
    exact decodeWord_wordNnn_call nnn
  · have hlt : s.sp.val < 16 := hn ▸ n.isLt
    refine ⟨_, exec_call_push nnn s hlt, rfl, congrArg (· + 1) hn, zext16_toNat nnn, fun m => ?_⟩
    simp only [Fin.ext_iff, ← hn]
    exact slot_push s hlt m
  · rw [hword]
    exact exec_call_full nnn s hfull

/-- Settles O19: the RET finds the slot that the CALL wrote and lowers SP to where it was. -/
theorem callThenRetResumesAfterTheCall : Obligations.CallThenRetResumesAfterTheCall := by
  intro nnn s hlt
  refine ⟨_, _, exec_call_push nnn s hlt, exec_ret_pop _ ⟨s.sp.val, hlt⟩ rfl, ?_, fun m hm => ?_⟩
  · have hresume : ({ s with stack := s.stack.set s.sp.val s.nextPC } : State).slot ⟨s.sp.val, hlt⟩ = s.pcPlus 2 := by
      rw [slot_push s hlt, if_pos rfl]
    rw [← hresume]
    rfl
  · exact (slot_push s hlt m).trans (if_neg hm)

/-! ### SUB, SHR and RND -/

/-- R146: SUB's flag is the strict comparison. -/
theorem subFlag_eq (a b : Byte) : subFlag a b = if a.toNat > b.toNat then 1#8 else 0#8 := by
  simp only [subFlag, flagByte, decide_eq_true_eq]

/-- R147: SHR's flag is the remainder by 2. -/
theorem shrFlag_toNat (a : Byte) : (shrFlag a).toNat = a.toNat % 2 := by
  rw [shrFlag, flagByte_toNat]
  simp only [BitVec.getLsbD, Nat.testBit_zero, decide_eq_true_eq]
  split <;> omega

/-- Settles O24: the flag is the strict comparison, and the difference is written after it. -/
theorem subSetsNotBorrow : Obligations.SubSetsNotBorrow := by
  intro x y s
  obtain ⟨t, hnext, hframe, hdiff, hflag, hother⟩ := exec_setFlag_setReg_advance_effect (exec_subVxVy x y s)
  refine ⟨?_, t, hnext, hframe, ?_, fun hx => ?_, hother⟩
  · rw [pattern_xyo 0x8005 8 x y 5 rfl, decodeWord_wordXyn_subVxVy]
  · have hy := (s.reg y).isLt
    rw [hdiff, BitVec.toNat_sub]
    omega
  · rw [hflag hx, subFlag, flagByte_toNat]
    simp only [decide_eq_true_eq]

/-- Settles O25: the flag is the bit shifted out, and the half is written after it. -/
theorem shrShiftsOutIntoVf : Obligations.ShrShiftsOutIntoVf := by
  intro x y s
  obtain ⟨t, hnext, hframe, hhalf, hflag, hother⟩ := exec_setFlag_setReg_advance_effect (exec_shrVx x y s)
  refine ⟨?_, t, hnext, hframe, ?_, fun hx => ?_, hother⟩
  · rw [pattern_xyo 0x8006 8 x y 6 rfl, decodeWord_wordXyn_shrVx]
  · rw [hhalf, BitVec.toNat_ushiftRight, Nat.shiftRight_one]
  · rw [hflag hx, shrFlag_toNat]

/-- Settles O28: RND writes the masked draw, which has no bit outside the mask. -/
theorem rndMasksADraw : Obligations.RndMasksADraw := by
  intro x kk s
  have hreg : ∀ r, (s.setReg x (Config.draw8 s.draws &&& kk)).reg r =
      if r = x then Config.draw8 s.draws &&& kk else s.reg r := fun r => s.reg_setReg x r _
  have hx := (hreg x).trans (if_pos rfl)
  refine ⟨?_, _, exec_rndVxKk x kk s, ?_, hx, ?_, fun r hr => (hreg r).trans (if_neg hr)⟩
  · rw [pattern_xkk 0xC000 12 x kk rfl, decodeWord_wordXkk_rndVxKk]
  · rw [State.advance_eq_pcPlus]
    rfl
  · refine (congrArg (· &&& ~~~kk) hx).trans ?_
    rw [BitVec.and_assoc, BitVec.and_not_self]
    exact BitVec.and_zero

/-! ### The readings of VF as an operand (U6) -/

/-- The readings of SUB agree where the flag overwrites both operands, whose difference is then 0 either way, or
neither. -/
theorem execSubVxVyWith_sequential_eq {x y : Reg} (s : State) (hxy : x = VF ↔ y = VF) :
    execSubVxVyWith .sequential x y s = execSubVxVyWith .readFirst x y s := by
  by_cases hx : x = VF
  · simp only [execSubVxVyWith, hx, hxy.1 hx, BitVec.sub_self]
  · simp only [execSubVxVyWith, State.reg_setReg, if_neg hx, if_neg (mt hxy.2 hx)]

/-- The readings of SHR agree where the flag does not overwrite the operand. -/
theorem execShrVxWith_sequential_eq {x : Reg} (s : State) (hx : x ≠ VF) :
    execShrVxWith .sequential x s = execShrVxWith .readFirst x s := by
  simp only [execShrVxWith, State.reg_setReg, if_neg hx]

/-- U6's exception: both operands are VF, or neither is. -/
theorem subAliases_eq_false_iff (x y : Reg) : subAliases x y = false ↔ (x = VF ↔ y = VF) := by
  rw [subAliases, bne_eq_false_iff_eq, Bool.eq_iff_iff, beq_iff_eq, beq_iff_eq]

theorem execSubVxVyWith_refuse (x y : Reg) (s : State) :
    execSubVxVyWith .refuse x y s =
      if subAliases x y then .refused .vfAlias else execSubVxVyWith .readFirst x y s := rfl

theorem execSubVxVyWith_refuse_of_alias {x y : Reg} (s : State) (h : ¬ (x = VF ↔ y = VF)) :
    execSubVxVyWith .refuse x y s = .refused .vfAlias := by
  have halias : subAliases x y = true := by rwa [← Bool.not_eq_false, subAliases_eq_false_iff]
  rw [execSubVxVyWith_refuse, if_pos halias]

theorem execShrVxWith_refuse (x : Reg) (s : State) :
    execShrVxWith .refuse x s = if shrAliases x then .refused .vfAlias else execShrVxWith .readFirst x s := rfl

/-- What the sequential reading of SUB leaves: its operands are read again after VF was written. -/
theorem execSubVxVyWith_sequential_reg (x y : Reg) (s : State) :
    ∃ t, execSubVxVyWith .sequential x y s = .next t ∧ ∀ r, t.reg r =
      if r = x then
        (if x = VF then subFlag (s.reg x) (s.reg y) else s.reg x) -
          (if y = VF then subFlag (s.reg x) (s.reg y) else s.reg y)
      else if r = VF then subFlag (s.reg x) (s.reg y) else s.reg r := by
  refine ⟨_, rfl, fun r => ?_⟩
  simp only [State.advance_eq, State.reg_setPc, State.reg_setReg]

/-- SHR of VF, read again after its flag was written, is a flag shifted out. -/
theorem flagByte_shiftRight (b : Bool) : flagByte b >>> 1 = 0#8 := by cases b <;> rfl

/-- Settles O26: the readings agree where both or no operand was overwritten by the flag, and else the flag is what the
sequential one reads. -/
theorem vfAliasReadingsDifferInThreeCases : Obligations.VfAliasReadingsDifferInThreeCases := by
  intro x y s
  obtain ⟨t, hnext, hreg⟩ := execSubVxVyWith_sequential_reg x y s
  refine ⟨fun hxy => ⟨execSubVxVyWith_sequential_eq s hxy, ?_⟩,
    fun hx => ⟨execShrVxWith_sequential_eq s hx, ?_⟩, fun hx hy => ⟨?_, t, hnext, ?_⟩,
    fun hx hy => ⟨?_, t, hnext, ?_, ?_⟩, ?_, ?_⟩
  · rw [execSubVxVyWith_refuse, (subAliases_eq_false_iff x y).2 hxy, if_neg Bool.false_ne_true]
  · rw [execShrVxWith_refuse, shrAliases, beq_false_of_ne hx, if_neg Bool.false_ne_true]
  · exact execSubVxVyWith_refuse_of_alias s fun h => hy (h.1 hx)
  · rw [hreg, if_pos hx.symm, if_pos hx, if_neg hy, subFlag_eq, hx]
  · exact execSubVxVyWith_refuse_of_alias s fun h => hx (h.2 hy)
  · rw [hreg, if_neg (Ne.symm hx), if_pos rfl, subFlag_eq, hy]
  · rw [hreg, if_pos rfl, if_neg hx, if_pos hy, subFlag_eq, hy]
  · rw [execShrVxWith_refuse, shrAliases, beq_self_eq_true, if_pos rfl]
  · refine ⟨_, rfl, ?_⟩
    simp only [State.advance_eq, State.reg_setPc, State.reg_setReg, if_true]
    exact flagByte_shiftRight _

end Sys2Proof.Machine

/-! Proofs of 42_display.md: DRW (R171 to R177, U3). -/

namespace Sys2Proof.Machine

/-! ### The sprite's cells in the rules' terms -/

/-- The cells that drawing toggles are those the rules say the sprite covers: as Y0 + r < 48 and X0 + c < 72, leaving
32 rows or 64 columns off is taking remainders. -/
theorem mem_spriteCells_iff_covers (s : State) (x y : Reg) (n : Rows) (row : Fin 32) (col : Fin 64) :
    (row, col) ∈ spriteCells (s.spriteX x) (s.spriteY y) (operandBytes s n.val) ↔ SpriteCovers s x y n row col := by
  have hn := n.isLt
  have hrow := row.isLt
  have hcol := col.isLt
  simp only [mem_spriteCells, operandBytes_length, spriteCell_eq_some, State.spriteX, State.spriteY, Config.dispWidth,
    Config.dispHeight, SpriteCovers]
  refine exists_congr fun r => exists_congr fun c => and_congr_right fun hr => and_congr_right fun hc => ?_
  rw [operandBytes_getD s n.val r hr]
  refine and_congr_right fun _ => ?_
  omega

/-- A cell that a sprite covers is one of its toggled cells, as a pair. -/
theorem exists_mem_spriteCells_iff (s : State) (x y : Reg) (n : Rows) (P : Fin 32 → Fin 64 → Prop) :
    (∃ p ∈ spriteCells (s.spriteX x) (s.spriteY y) (operandBytes s n.val), P p.1 p.2) ↔
      ∃ row col, SpriteCovers s x y n row col ∧ P row col := by
  simp only [Prod.exists, mem_spriteCells_iff_covers]

theorem collisionFlag_eq_one_iff (b : Bool) : collisionFlag b = 1#8 ↔ b = true := by cases b <;> decide

theorem collisionFlag_zero_or_one (b : Bool) : collisionFlag b = 0#8 ∨ collisionFlag b = 1#8 := by
  cases b <;> decide

/-! ### What a DRW that does not fault does (R172) -/

theorem exec_drw_effect (x y : Reg) (n : Rows) (s : State) (h : n.val = 0 ∨ s.i.toNat + n.val ≤ 4096) :
    ∃ t, exec (.drw x y n) s = .next t ∧ t = { s with v := t.v, disp := t.disp, pc := s.pcPlus 2 } ∧
      (∀ row col, t.disp.cell row col ≠ s.disp.cell row col ↔ SpriteCovers s x y n row col) ∧
      (t.reg VF = 1#8 ↔ ∃ row col, SpriteCovers s x y n row col ∧ s.disp.cell row col = true) ∧
      (t.reg VF = 0#8 ∨ t.reg VF = 1#8) ∧ ∀ r, r ≠ VF → t.reg r = s.reg r := by
  have hlen : (operandBytes s n.val).length ≤ 16 := (operandBytes_length s n.val).trans_le n.isLt.le
  obtain ⟨hcell, hcoll⟩ := drawSprite_spec (s.spriteX x) (s.spriteY y) (operandBytes s n.val) hlen s.disp
  refine ⟨_, exec_drw_draw x y n s h, ?_, fun row col => ?_, ?_, ?_, fun r hr => ?_⟩
  · rw [State.advance_eq_pcPlus]
    rfl
  · rw [← mem_spriteCells_iff_covers]
    simp only [State.advance_eq, State.setPc_disp, State.setReg_disp, hcell]
    split
    case isTrue htoggled => simp [htoggled]
    case isFalse hkept => simp [hkept]
  · simp only [State.advance_eq, State.reg_setPc, State.reg_setReg, if_true]
    rw [collisionFlag_eq_one_iff, hcoll, exists_mem_spriteCells_iff s x y n fun row col => s.disp.cell row col = true]
  · simp only [State.advance_eq, State.reg_setPc, State.reg_setReg, if_true]
    exact collisionFlag_zero_or_one _
  · simp only [State.advance_eq, State.reg_setPc, State.reg_setReg, if_neg hr]
    rfl

/-- Settles O30: the sprite's toggled cells are those it covers. -/
theorem drwTogglesExactlyTheSpriteCells : Obligations.DrwTogglesExactlyTheSpriteCells := by
  refine fun x y n s => ⟨?_, exec_drw_effect x y n s⟩
  rw [pattern_xyn 0xD000 13 x y n rfl, decodeWord_wordXyn_drw]

/-! ### Two equal draws (R176) -/

/-- Which cells a sprite covers depends on its two registers, I and memory only. -/
theorem spriteCovers_congr {s t : State} {x y : Reg} (hx : t.reg x = s.reg x) (hy : t.reg y = s.reg y)
    (hi : t.i = s.i) (hmem : t.mem = s.mem) (n : Rows) (row : Fin 32) (col : Fin 64) :
    SpriteCovers t x y n row col ↔ SpriteCovers s x y n row col := by
  simp only [SpriteCovers, State.readByte, hx, hy, hi, hmem]

/-- A cell toggled or not by each of two draws differs after both exactly when one draw alone toggled it. -/
theorem ne_iff_of_two_toggles {a b c : Bool} {P Q : Prop} (hfirst : b ≠ a ↔ P) (hsecond : c ≠ b ↔ Q) :
    c ≠ a ↔ ¬ (P ↔ Q) := by
  have htable : ∀ a b c : Bool, c ≠ a ↔ ¬ (b ≠ a ↔ c ≠ b) := by decide
  rw [← hfirst, ← hsecond]
  exact htable a b c

/-- Settles O31, by O30 twice: the second draw starts from the first one's display, and with neither register VF it
covers the same cells, each of which the first draw inverted. -/
theorem drwTwiceRestoresTheDisplay : Obligations.DrwTwiceRestoresTheDisplay := by
  intro x y n s h
  obtain ⟨t, hexec, hframe, hcell, -, -, hother⟩ := exec_drw_effect x y n s h
  have hi : t.i = s.i := by rw [hframe]
  have hmem : t.mem = s.mem := by rw [hframe]
  obtain ⟨u, hexec', -, hcell', hflag', -, -⟩ := exec_drw_effect x y n t (hi ▸ h)
  have htwice : ∀ row col, u.disp.cell row col ≠ s.disp.cell row col ↔
      ¬ (SpriteCovers s x y n row col ↔ SpriteCovers t x y n row col) := fun row col =>
    ne_iff_of_two_toggles (hcell row col) (hcell' row col)
  refine ⟨t, u, hexec, hexec', htwice, fun hx hy => ?_⟩
  have hsame := spriteCovers_congr (hother x hx) (hother y hy) hi hmem n
  refine ⟨Display.ext_cells _ _ fun row col => ?_, hflag'.trans ?_⟩
  · by_contra hne
    exact (htwice row col).1 hne (hsame row col).symm
  · refine exists_congr fun row => exists_congr fun col => ?_
    rw [hsame row col]
    refine and_congr_right fun hcovers => ?_
    have hinverted : t.disp.cell row col = !s.disp.cell row col := Bool.eq_not.2 ((hcell row col).2 hcovers)
    rw [hinverted, Bool.not_eq_true']

/-! ### The edges of DRW -/

/-- Settles O32: the access check faults first, and a sprite of no rows draws nothing. -/
theorem drwRangeFaultAndNoRows : Obligations.DrwRangeFaultAndNoRows := by
  refine fun x y n s => ⟨fun hpos hout => ?_, fun hzero => ?_⟩
  · rw [exec_drw_out x y n s hpos (by omega), pattern_xyn 0xD000 13 x y n rfl]
    rfl
  · have hnone : operandBytes s n.val = [] := List.eq_nil_of_length_eq_zero ((operandBytes_length s n.val).trans hzero)
    have hexec := exec_drw_draw x y n s (.inl hzero)
    rw [hnone] at hexec
    exact exec_setReg_advance_effect hexec

/-- R175: overflowing both edges, in numbers. -/
theorem overflowsCorner_iff (s : State) (x y : Reg) (n : Rows) :
    overflowsCorner (s.spriteX x) (s.spriteY y) n.val = true ↔
      (s.reg y).toNat % 32 + n.val > 32 ∧ (s.reg x).toNat % 64 > 56 := by
  simp [overflowsCorner, State.spriteX, State.spriteY]

/-- Settles O33: the two settings differ in their first test only. -/
theorem drwCornerSettings : Obligations.DrwCornerSettings := by
  refine fun x y n s => ⟨fun hover => ?_, fun hinside => ?_⟩
  · exact if_pos ⟨rfl, (overflowsCorner_iff s x y n).2 hover⟩
  · have hno := mt (overflowsCorner_iff s x y n).1 hinside
    simp only [exec, execDrw, execDrwWith, Config.drwCorner, Bool.eq_false_iff.2 hno, Bool.false_eq_true, and_false]

end Sys2Proof.Machine

/-! Proofs of 43_keypad_timers.md and 44_memory.md: the key skips (R190, R191, R197), LD ST,Vx (R195), LD B,Vx (R210)
and LD Vx,[I] (R211). -/

namespace Sys2Proof.Machine

/-! ### Keys and the sound timer -/

/-- Settles O34: below 16 V[x] names a key, which decides the skip, and above 15 both fault with their own words. -/
theorem skpAndSknpTestTheKey : Obligations.SkpAndSknpTestTheKey := by
  intro x s
  have hskp : BitVec.ofNat 16 (0xE09E + 0x100 * x.val) = encode (.skp x) := pattern_xoo 0xE09E 14 x 0x9E#8 rfl
  have hsknp : BitVec.ofNat 16 (0xE0A1 + 0x100 * x.val) = encode (.sknp x) := pattern_xoo 0xE0A1 14 x 0xA1#8 rfl
  rw [hskp, hsknp]
  refine ⟨decodeWord_wordXkk_skp x, decodeWord_wordXkk_sknp x, fun k hk => ⟨?_, ?_⟩,
    fun hout => ⟨exec_skp_out x s hout, exec_sknp_out x s hout⟩⟩
  · rw [exec_skp_test x s k hk, State.skipIf_eq_pcPlus]
  · rw [exec_sknp_test x s k hk, State.skipIf_eq_pcPlus]
    simp only [Bool.not_eq_true', ← Bool.not_eq_true, ite_not]

theorem soundStarts_iff (s t : State) : soundStarts s t = true ↔ s.st = 0#8 ∧ t.st ≠ 0#8 := by
  simp [soundStarts, State.snd]

theorem soundStops_iff (s t : State) : soundStops s t = true ↔ s.st ≠ 0#8 ∧ t.st = 0#8 := by
  simp [soundStops, State.snd]

/-- Settles O36: LD ST,Vx writes ST and advances, and the edges are those of ST ≠ 0. -/
theorem soundTimerLoad : Obligations.SoundTimerLoad := by
  refine fun x s => ⟨?_, _, exec_ldStVx x s, ?_, soundStarts_iff s _, soundStops_iff s _⟩
  · rw [pattern_xoo 0xF018 15 x 0x18#8 rfl, decodeWord_wordXkk_ldStVx]
  · exact State.advance_eq_pcPlus { s with st := s.reg x }

/-! ### LD B,Vx -/

theorem decimalBytes_getD_zero (v d : Byte) : ((decimalBytes v).getD 0 d).toNat = v.toNat / 100 := BitVec.toNat_udiv

theorem decimalBytes_getD_one (v d : Byte) : ((decimalBytes v).getD 1 d).toNat = v.toNat / 10 := BitVec.toNat_udiv

theorem decimalBytes_getD_two (v d : Byte) : ((decimalBytes v).getD 2 d).toNat = v.toNat % 10 := BitVec.toNat_umod

/-- The memory that LD B,Vx leaves: the three bytes at I, every other address as before. -/
theorem read_writeBytes_decimalBytes {s : State} (hwf : s.mem.wf) (hin : s.i.toNat + 2 ≤ 4095) (v : Byte) (a : Nat) :
    (s.mem.writeBytes s.i.toNat (decimalBytes v)).read a =
      if s.i.toNat ≤ a ∧ a < s.i.toNat + 3 then (decimalBytes v).getD (a - s.i.toNat) Memory.unlisted
      else s.readByte a := by
  refine Memory.read_writeBytes s.mem hwf s.i.toNat (decimalBytes v) ?_ a
  simp only [decimalBytes_length, Config.memSize]
  omega

/-- R210 with R67: what a completed LD B,Vx does. -/
theorem exec_ldBVx_effect {x : Reg} {s : State} (hwf : s.mem.wf) (hin : s.i.toNat + 2 ≤ 4095) :
    ∃ t, exec (.ldBVx x) s = .next t ∧ t = { s with mem := t.mem, pc := s.pcPlus 2 } ∧
      (t.readByte s.i.toNat).toNat = (s.reg x).toNat / 100 ∧
      (t.readByte (s.i.toNat + 1)).toNat = (s.reg x).toNat / 10 ∧
      (t.readByte (s.i.toNat + 2)).toNat = (s.reg x).toNat % 10 ∧
      ∀ a, (a < s.i.toNat ∨ s.i.toNat + 2 < a) → t.readByte a = s.readByte a := by
  have hread := read_writeBytes_decimalBytes hwf hin (s.reg x)
  have hstored (k : Nat) (hk : k < 3) : (s.mem.writeBytes s.i.toNat (decimalBytes (s.reg x))).read (s.i.toNat + k) =
      (decimalBytes (s.reg x)).getD k Memory.unlisted := by
    rw [hread, if_pos (by omega), Nat.add_sub_cancel_left]
  refine ⟨_, exec_ldBVx_store x s hin, ?_, ?_, ?_, ?_, fun a ha => ?_⟩
  · exact State.advance_eq_pcPlus { s with mem := s.mem.writeBytes s.i.toNat (decimalBytes (s.reg x)) }
  · exact (congrArg BitVec.toNat (hstored 0 (by decide))).trans (decimalBytes_getD_zero _ _)
  · exact (congrArg BitVec.toNat (hstored 1 (by decide))).trans (decimalBytes_getD_one _ _)
  · exact (congrArg BitVec.toNat (hstored 2 (by decide))).trans (decimalBytes_getD_two _ _)
  · exact (hread a).trans (if_neg (by omega))

/-- Settles O41: the three bytes are stored, or the access check faults first. -/
theorem ldBStoresTheThreeBytes : Obligations.LdBStoresTheThreeBytes := by
  intro x s hwf
  rw [pattern_xoo 0xF033 15 x 0x33#8 rfl]
  exact ⟨decodeWord_wordXkk_ldBVx x, exec_ldBVx_effect hwf, exec_ldBVx_out x s⟩

/-- Settles O43: the fetch at I reads the first two stored bytes. -/
theorem storesAreSeenByFetch : Obligations.StoresAreSeenByFetch := by
  intro x s hwf hin
  obtain ⟨t, hexec, -, hfirst, hsecond, -, -⟩ := exec_ldBVx_effect (x := x) hwf hin
  refine ⟨t, hexec, (fetchWord_eq_some _ _).2 ⟨(by omega : s.i.toNat ≤ 4094), ?_⟩⟩
  rw [← hfirst, ← hsecond]
  rfl

/-! ### LD Vx,[I] -/

/-- Settles O42: register r takes byte r of the operand up to x, or the access check faults first. -/
theorem ldVxILoadsTheRegisters : Obligations.LdVxILoadsTheRegisters := by
  intro x s
  rw [pattern_xoo 0xF065 15 x 0x65#8 rfl]
  refine ⟨decodeWord_wordXkk_ldVxI x, fun hin => ⟨_, exec_ldVxI_load x s hin, ?_, fun r => ?_⟩, exec_ldVxI_out x s⟩
  · exact State.advance_eq_pcPlus { s with v := Regs.load s.v 0 (operandBytes s (x.val + 1)) }
  · refine (load_getElem s.v 0 (operandBytes s (x.val + 1)) r.val r.isLt).trans ?_
    rw [operandBytes_length]
    by_cases hr : r.val ≤ x.val
    · rw [if_pos (by omega), if_pos hr, Nat.sub_zero, operandBytes_getD s _ _ (by omega)]
    · rw [if_neg (by omega), if_neg hr]
      rfl

end Sys2Proof.Machine

/-! Proofs of 60_exceptions.md: the timers (R230, R231) and the sound's edges (R232). -/

namespace Sys2Proof.Machine

/-! ### Ticks -/

theorem timerTick_of_running {s : State} (h : s.run = true) :
    timerTick s = { s with dt := timerDown s.dt, st := timerDown s.st } := by
  simp [timerTick, State.timerEnabled, h]

theorem step_of_tick {s : State} (hturn : s.nextTurn = .tick) (hrun : s.run = true) :
    step s = .next { s with turns := s.turns.tail, dt := timerDown s.dt, st := timerDown s.st } := by
  rw [step_eq, hturn]
  exact congrArg Host.Outcome.next (timerTick_of_running (s := s.popTurn) hrun)

/-- Settles O38: the tick of a running machine lowers each timer by `timerDown`. -/
theorem tickLowersBothTimers : Obligations.TickLowersBothTimers := fun s hturn hrun =>
  ⟨_, step_of_tick hturn hrun, rfl, timerDown_toNat s.dt, timerDown_toNat s.st⟩

theorem core_run_succ_of_next {k : Nat} {s t : State} (h : step s = .next t) : core.run (k + 1) s = core.run k t := by
  have hstep : core.step s = .next t := h
  simp only [Host.Core.run, hstep]

/-- Settles O39, by induction on the ticks, each of which leaves RUN = 1 and the other ticks to come. -/
theorem ticksCountDownToZero : Obligations.TicksCountDownToZero := by
  intro k
  induction k with
  | zero =>
    rintro s rest - hturns
    obtain rfl : s.turns = rest := hturns
    exact ⟨s, rfl, rfl, rfl, rfl⟩
  | succ k ih =>
    intro s rest hrun hturns
    have hcons : s.turns = .tick :: (List.replicate k Turn.tick ++ rest) := hturns
    have hstep := step_of_tick (s.nextTurn_cons _ _ hcons) hrun
    obtain ⟨t, hexec, hframe, hdt, hst⟩ :=
      ih { s with turns := s.turns.tail, dt := timerDown s.dt, st := timerDown s.st } rest hrun (by rw [hcons]; rfl)
    refine ⟨t, (core_run_succ_of_next hstep).trans hexec, hframe, ?_, ?_⟩
    · rw [hdt, timerDown_toNat]
      omega
    · rw [hst, timerDown_toNat]
      omega

/-! ### What changes a timer, and the sound's edges -/

/-- Only LD DT,Vx writes DT (R31). -/
theorem dtAfter_cases (s : State) (i : Instr) : (∃ x, i = .ldDtVx x) ∨ dtAfter s i = s.dt := by
  cases i with
  | ldDtVx x => exact .inl ⟨x, rfl⟩
  | _ => exact .inr rfl

/-- Only LD ST,Vx writes ST (R32). -/
theorem stAfter_cases (s : State) (i : Instr) : (∃ x, i = .ldStVx x ∧ stAfter s i = s.reg x) ∨ stAfter s i = s.st := by
  cases i with
  | ldStVx x => exact .inl ⟨x, rfl, rfl⟩
  | _ => exact .inr rfl

theorem timerDown_eq_zero_iff (t : Byte) : timerDown t = 0#8 ↔ t = 0#8 ∨ t = 1#8 := by
  rw [← BitVec.toNat_inj, timerDown_toNat, ← BitVec.toNat_inj, ← BitVec.toNat_inj]
  simp only [BitVec.toNat_ofNat]
  omega

/-- R31, R32: the timers change only in a step that executes an instruction which writes them, at a tick, which lowers
both, and in Init. -/
theorem agentStep_timers {a : Turn} {s t : State} (ht : agentStep a s = .next t)
    (hinit : ∀ rom, a ≠ .host (.init rom)) :
    (∃ i, Executes a s i ∧ t.dt = dtAfter s i ∧ t.st = stAfter s i) ∨
    (a = .tick ∧ t.dt = timerDown s.dt ∧ t.st = timerDown s.st) ∨ (t.dt = s.dt ∧ t.st = s.st) := by
  rcases agentStep_next_cases ht with ⟨-, -, rfl⟩ | ⟨-, -, k, iw, rfl⟩ | ⟨i, hexecutes, -, rfl⟩ | ⟨rfl, rfl⟩ |
    ⟨m, rfl, hmove⟩
  · exact .inr (.inr ⟨rfl, rfl⟩)
  · exact .inr (.inr ⟨rfl, rfl⟩)
  · exact .inl ⟨i, hexecutes, rfl, rfl⟩
  · cases hrun : s.run with
    | true =>
      rw [timerTick_of_running hrun]
      exact .inr (.inl ⟨rfl, rfl, rfl⟩)
    | false =>
      rw [timerTick_of_stopped hrun]
      exact .inr (.inr ⟨rfl, rfl⟩)
  · rcases hostMove_rebuilds_or_frames hmove with ⟨rom, rfl, -⟩ | ⟨keys, run, aborted, rfl⟩
    · exact absurd rfl (hinit rom)
    · exact .inr (.inr ⟨rfl, rfl⟩)

/-- R31: DT by its causes. -/
theorem agentStep_dt {a : Turn} {s t : State} (ht : agentStep a s = .next t) (hinit : ∀ rom, a ≠ .host (.init rom)) :
    (∃ x, Executes a s (.ldDtVx x)) ∨ (a = .tick ∧ t.dt = timerDown s.dt) ∨ t.dt = s.dt := by
  rcases agentStep_timers ht hinit with ⟨i, hexecutes, hdt, -⟩ | ⟨htick, hdt, -⟩ | ⟨hdt, -⟩
  · rcases dtAfter_cases s i with ⟨x, rfl⟩ | hkept
    · exact .inl ⟨x, hexecutes⟩
    · exact .inr (.inr (hdt.trans hkept))
  · exact .inr (.inl ⟨htick, hdt⟩)
  · exact .inr (.inr hdt)

/-- R32: ST by its causes, with the value that LD ST,Vx loads. -/
theorem agentStep_st {a : Turn} {s t : State} (ht : agentStep a s = .next t) (hinit : ∀ rom, a ≠ .host (.init rom)) :
    (∃ x, Executes a s (.ldStVx x) ∧ t.st = s.reg x) ∨ (a = .tick ∧ t.st = timerDown s.st) ∨ t.st = s.st := by
  rcases agentStep_timers ht hinit with ⟨i, hexecutes, -, hst⟩ | ⟨htick, -, hst⟩ | ⟨-, hst⟩
  · rcases stAfter_cases s i with ⟨x, rfl, hload⟩ | hkept
    · exact .inl ⟨x, hexecutes, hst.trans hload⟩
    · exact .inr (.inr (hst.trans hkept))
  · exact .inr (.inl ⟨htick, hst⟩)
  · exact .inr (.inr hst)

/-- The step executes `i` exactly when a ready CPU agent's fetched word decodes to it. -/
theorem cpuReady_of_executes {s : State} {i : Instr} (h : Executes s.nextTurn s.popTurn i) :
    s.CpuReady ∧ ∃ w, s.fetchWord = some w ∧ decodeWord w = .ok i := by
  obtain ⟨hturn, hon, hword⟩ := h
  exact ⟨⟨hturn, s.popTurn.cpuEnabled_iff.1 hon⟩, hword⟩

/-- Settles O40, by what can change ST: a load makes either edge, and a tick the fall from 1. -/
theorem soundEdgesHaveTheirCauses : Obligations.SoundEdgesHaveTheirCauses := by
  intro s t hinit ht
  rw [soundStarts_iff, soundStops_iff]
  rcases agentStep_st (s := s.popTurn) ht hinit with ⟨x, hexecutes, hst⟩ | ⟨htick, hst⟩ | hst
  · obtain ⟨hready, w, hfetch, hdecode⟩ := cpuReady_of_executes hexecutes
    exact ⟨fun ⟨_, hon⟩ => ⟨hready, x, w, hfetch, hdecode, hst ▸ hon⟩,
      fun ⟨_, hoff⟩ => .inr ⟨hready, x, w, hfetch, hdecode, hst.symm.trans hoff⟩⟩
  · refine ⟨fun ⟨hwas, hon⟩ => absurd ?_ hon, fun ⟨hwas, hoff⟩ => .inl ⟨htick, ?_⟩⟩
    · exact hst.trans ((timerDown_eq_zero_iff _).2 (.inl hwas))
    · exact ((timerDown_eq_zero_iff _).1 (hst.symm.trans hoff)).resolve_left hwas
  · exact ⟨fun ⟨hwas, hon⟩ => absurd (hst.trans hwas) hon, fun ⟨hwas, hoff⟩ => absurd (hst.symm.trans hoff) hwas⟩

end Sys2Proof.Machine

/-! Proofs of 10_state.md and 20_memory.md: what each instruction and each agent may read and write (R22, R24 to R38,
R75, R76). -/

namespace Sys2Proof.Machine

/-! ### Which instruction writes which part of the state -/

theorem iAfter_writers {s : State} {i : Instr} (h : iAfter s i ≠ s.i) :
    (∃ nnn, i = .ldINnn nnn) ∨ ∃ x, i = .addIVx x := by
  cases i with
  | ldINnn nnn => exact .inl ⟨nnn, rfl⟩
  | addIVx x => exact .inr ⟨x, rfl⟩
  | _ => exact absurd rfl h

theorem stackAfter_writers {s : State} {i : Instr} (h : stackAfter s i ≠ s.stack) : ∃ nnn, i = .call nnn := by
  cases i with
  | call nnn => exact ⟨nnn, rfl⟩
  | _ => exact absurd rfl h

theorem spAfter_writers {s : State} {i : Instr} (h : spAfter s i ≠ s.sp) : i = .ret ∨ ∃ nnn, i = .call nnn := by
  cases i with
  | ret => exact .inl rfl
  | call nnn => exact .inr ⟨nnn, rfl⟩
  | _ => exact absurd rfl h

theorem dtAfter_writers {s : State} {i : Instr} (h : dtAfter s i ≠ s.dt) : ∃ x, i = .ldDtVx x :=
  (dtAfter_cases s i).resolve_right h

theorem stAfter_writers {s : State} {i : Instr} (h : stAfter s i ≠ s.st) : ∃ x, i = .ldStVx x := by
  rcases stAfter_cases s i with ⟨x, rfl, -⟩ | hst
  · exact ⟨x, rfl⟩
  · exact absurd hst h

theorem memAfter_writers {s : State} {i : Instr} (h : memAfter s i ≠ s.mem) : ∃ x, i = .ldBVx x := by
  cases i with
  | ldBVx x => exact ⟨x, rfl⟩
  | _ => exact absurd rfl h

theorem dispAfter_writers {s : State} {i : Instr} (h : dispAfter s i ≠ s.disp) :
    i = .cls ∨ ∃ x y n, i = .drw x y n := by
  cases i with
  | cls => exact .inl rfl
  | drw x y n => exact .inr ⟨x, y, n, rfl⟩
  | _ => exact absurd rfl h

theorem drawsAfter_writers {s : State} {i : Instr} (h : drawsAfter s i ≠ s.draws) : ∃ x kk, i = .rndVxKk x kk := by
  cases i with
  | rndVxKk x kk => exact ⟨x, kk, rfl⟩
  | _ => exact absurd rfl h

/-- Settles O44: fault entry changes none of these parts, and completing changes each under its writers only. -/
theorem instructionsWriteOnlyTheirState : Obligations.InstructionsWriteOnlyTheirState := by
  intro i s t ht
  rcases exec_next_cases ht with ⟨k, -, rfl⟩ | ⟨-, rfl⟩
  · exact ⟨(absurd rfl ·), (absurd rfl ·), (absurd rfl ·), (absurd rfl ·), (absurd rfl ·), (absurd rfl ·),
      (absurd rfl ·), (absurd rfl ·), rfl, rfl, rfl, rfl⟩
  · exact ⟨iAfter_writers, stackAfter_writers, spAfter_writers, dtAfter_writers, stAfter_writers, memAfter_writers,
      dispAfter_writers, drawsAfter_writers, rfl, rfl, rfl, rfl⟩

/-! ### The registers an instruction writes (R22) -/

theorem Regs.getElem_set_of_ne (v : Regs) (b : Byte) {x r : Reg} (h : ¬ r = x) : (v.set x.val b)[r.val] = v[r.val] :=
  Vector.getElem_set_ne x.isLt r.isLt fun e => h (Fin.ext e.symm)

/-- A register outside R22's writing rows is kept. -/
theorem vAfter_getElem_of_not_mayWrite {s : State} {i : Instr} {r : Reg} (h : ¬ MayWriteReg r i) :
    (vAfter s i)[r.val] = s.reg r := by
  cases i with
  | ldVxKk x | addVxKk x | ldVxVy x | andVxVy x | xorVxVy x | rndVxKk x | ldVxDt x | drw =>
    exact Regs.getElem_set_of_ne _ _ h
  | addVxVy x | subVxVy x | shrVx x =>
    obtain ⟨hx, hf⟩ := not_or.1 h
    exact (Regs.getElem_set_of_ne _ _ hx).trans (Regs.getElem_set_of_ne _ _ hf)
  | ldVxK x =>
    simp only [vAfter]
    split
    · rfl
    · exact Regs.getElem_set_of_ne _ _ h
  | ldVxI x =>
    have hlt : ¬ r.val ≤ x.val := h
    refine (load_getElem s.v 0 _ r.val r.isLt).trans (if_neg ?_)
    rw [operandBytes_length]
    omega
  | _ => rfl

/-! ### A register that an instruction neither reads nor writes (R22) -/

section UnusedRegister

variable {s : State} {i : Instr} {r : Reg} {b : Byte}

theorem State.reg_setReg_of_ne {q : Reg} (h : ¬ r = q) : (s.setReg r b).reg q = s.reg q := by
  rw [s.reg_setReg, if_neg (Ne.symm h)]

theorem State.spriteX_setReg_of_ne {q : Reg} (h : ¬ r = q) : (s.setReg r b).spriteX q = s.spriteX q := by
  rw [State.spriteX, State.spriteX, State.reg_setReg_of_ne h]

theorem State.spriteY_setReg_of_ne {q : Reg} (h : ¬ r = q) : (s.setReg r b).spriteY q = s.spriteY q := by
  rw [State.spriteY, State.spriteY, State.reg_setReg_of_ne h]

theorem Regs.set_comm_of_ne (v : Regs) (c : Byte) {x : Reg} (h : ¬ r = x) :
    (v.set r.val b).set x.val c = (v.set x.val c).set r.val b :=
  Vector.set_comm _ _ fun e => h (Fin.ext e)

/-- R211: a register above those loaded may be written before or after. -/
theorem Regs.load_set_of_lt (v : Regs) (bs : List Byte) (h : bs.length ≤ r.val) :
    Regs.load (v.set r.val b) 0 bs = (Regs.load v 0 bs).set r.val b := by
  apply Vector.ext
  intro k hk
  simp only [load_getElem, Vector.getElem_set]
  by_cases hr : r.val = k
  · rw [if_neg (by omega), if_pos hr, if_pos hr]
  · simp only [if_neg hr]

theorem faultCause_setReg (hread : ¬ ReadsReg r i) : faultCause (s.setReg r b) i = faultCause s i := by
  cases i with
  | skp x | sknp x => simp only [faultCause, State.reg_setReg_of_ne hread]
  | _ => rfl

theorem newPC_setReg (hread : ¬ ReadsReg r i) : newPC (s.setReg r b) i = newPC s i := by
  cases i with
  | seVxKk x | sneVxKk x | skp x | sknp x =>
    simp only [newPC, State.reg_setReg_of_ne hread]
    rfl
  | _ => rfl

theorem iAfter_setReg (hread : ¬ ReadsReg r i) : iAfter (s.setReg r b) i = iAfter s i := by
  cases i with
  | addIVx x =>
    simp only [iAfter, State.reg_setReg_of_ne hread]
    rfl
  | _ => rfl

theorem dtAfter_setReg (hread : ¬ ReadsReg r i) : dtAfter (s.setReg r b) i = dtAfter s i := by
  cases i with
  | ldDtVx x => exact State.reg_setReg_of_ne hread
  | _ => rfl

theorem stAfter_setReg (hread : ¬ ReadsReg r i) : stAfter (s.setReg r b) i = stAfter s i := by
  cases i with
  | ldStVx x => exact State.reg_setReg_of_ne hread
  | _ => rfl

theorem memAfter_setReg (hread : ¬ ReadsReg r i) : memAfter (s.setReg r b) i = memAfter s i := by
  cases i with
  | ldBVx x =>
    simp only [memAfter, State.reg_setReg_of_ne hread]
    rfl
  | _ => rfl

theorem dispAfter_setReg (hread : ¬ ReadsReg r i) : dispAfter (s.setReg r b) i = dispAfter s i := by
  cases i with
  | drw x y n =>
    obtain ⟨hx, hy⟩ := not_or.1 hread
    simp only [dispAfter, State.spriteX_setReg_of_ne hx, State.spriteY_setReg_of_ne hy]
    rfl
  | _ => rfl

theorem vAfter_setReg (hwrite : ¬ MayWriteReg r i) (hread : ¬ ReadsReg r i) :
    vAfter (s.setReg r b) i = (vAfter s i).set r.val b := by
  cases i with
  | ldVxKk x | rndVxKk x | ldVxDt x => exact Regs.set_comm_of_ne _ _ hwrite
  | addVxKk x | ldVxVy _ y =>
    simp only [vAfter, State.reg_setReg_of_ne hread]
    exact Regs.set_comm_of_ne _ _ hwrite
  | andVxVy x y | xorVxVy x y =>
    obtain ⟨hx, hy⟩ := not_or.1 hread
    simp only [vAfter, State.reg_setReg_of_ne hx, State.reg_setReg_of_ne hy]
    exact Regs.set_comm_of_ne _ _ hwrite
  | addVxVy x y | subVxVy x y =>
    obtain ⟨hx, hy⟩ := not_or.1 hread
    obtain ⟨-, hf⟩ := not_or.1 hwrite
    simp only [vAfter, State.reg_setReg_of_ne hx, State.reg_setReg_of_ne hy, State.setReg_v,
      Regs.set_comm_of_ne _ _ hf, Regs.set_comm_of_ne _ _ hx]
  | shrVx x y =>
    obtain ⟨hx, hf⟩ := not_or.1 hwrite
    simp only [vAfter, State.reg_setReg_of_ne hread, State.setReg_v, Regs.set_comm_of_ne _ _ hf,
      Regs.set_comm_of_ne _ _ hx]
  | drw x y n =>
    obtain ⟨hx, hy⟩ := not_or.1 hread
    simp only [vAfter, State.spriteX_setReg_of_ne hx, State.spriteY_setReg_of_ne hy]
    exact Regs.set_comm_of_ne _ _ hwrite
  | ldVxK x =>
    by_cases h : s.keys = 0#16
    · have h' : (s.setReg r b).keys = 0#16 := h
      simp only [vAfter, if_pos h, if_pos h']
      rfl
    · have h' : ¬ (s.setReg r b).keys = 0#16 := h
      simp only [vAfter, if_neg h, if_neg h']
      exact Regs.set_comm_of_ne _ _ hwrite
  | ldVxI x =>
    have hlt : ¬ r.val ≤ x.val := hwrite
    exact Regs.load_set_of_lt s.v _ (by rw [operandBytes_length]; omega)
  | _ => rfl

/-- The other parts read no register. -/
theorem completed_setReg (hwrite : ¬ MayWriteReg r i) (hread : ¬ ReadsReg r i) :
    completed i (s.setReg r b) = (completed i s).setReg r b := by
  have hsp : spAfter (s.setReg r b) i = spAfter s i := by cases i <;> rfl
  have hstack : stackAfter (s.setReg r b) i = stackAfter s i := by cases i <;> rfl
  have hdraws : drawsAfter (s.setReg r b) i = drawsAfter s i := by cases i <;> rfl
  rw [completed, vAfter_setReg hwrite hread, iAfter_setReg hread, newPC_setReg hread, dtAfter_setReg hread,
    stAfter_setReg hread, memAfter_setReg hread, dispAfter_setReg hread, hsp, hstack, hdraws]
  rfl

end UnusedRegister

/-- Settles O45: fault entry writes no register and completing keeps those outside the writing rows; a register outside
both kinds of rows takes part in nothing. -/
theorem registersFollowTheAccessTable : Obligations.RegistersFollowTheAccessTable := by
  refine fun i r s => ⟨fun t ht hne => ?_, fun hwrite hread b => ?_⟩
  · rcases exec_next_cases ht with ⟨k, -, rfl⟩ | ⟨-, rfl⟩
    · exact absurd rfl hne
    · by_contra hwrite
      exact hne (vAfter_getElem_of_not_mayWrite hwrite)
  · exact exec_commutes (f := fun t => t.setReg r b) (faultCause_setReg hread) (fun _ _ => rfl)
      (completed_setReg hwrite hread)

/-! ### Memory, keys and timers as inputs -/

theorem completed_withMem {i : Instr} (h : accessesMemory i = false) (s : State) (m : Memory) :
    completed i { s with mem := m } = { completed i s with mem := m } := by
  cases i with
  | drw | ldBVx | ldVxI => cases h
  | _ => rfl

theorem completed_withKeys {i : Instr} (h : readsKeys i = false) (s : State) (k : BitVec 16) :
    completed i { s with keys := k } = { completed i s with keys := k } := by
  cases i with
  | skp | sknp | ldVxK => cases h
  | _ => rfl

/-- No instruction's fault depends on what memory holds (R221). -/
theorem faultCause_withMem (s : State) (i : Instr) (m : Memory) :
    faultCause { s with mem := m } i = faultCause s i := by
  cases i <;> rfl

/-- No instruction's fault depends on the keys (R221). -/
theorem faultCause_withKeys (s : State) (i : Instr) (k : BitVec 16) :
    faultCause { s with keys := k } i = faultCause s i := by
  cases i <;> rfl

/-- Settles O46: neither the fault table nor the completed state looks at an input that the instruction does not
have. -/
theorem instructionsReadOnlyTheirInputs : Obligations.InstructionsReadOnlyTheirInputs := by
  refine fun i s => ⟨fun hi m => ?_, fun hi k => ?_⟩
  · exact exec_commutes (f := fun t => { t with mem := m }) (faultCause_withMem s i m)
      (fun _ _ => rfl) (completed_withMem hi s m)
  · exact exec_commutes (f := fun t => { t with keys := k }) (faultCause_withKeys s i k)
      (fun _ _ => rfl) (completed_withKeys hi s k)

theorem timerTick_eq (s : State) :
    timerTick s =
      { s with dt := if s.run then timerDown s.dt else s.dt, st := if s.run then timerDown s.st else s.st } := by
  by_cases hrun : s.run = true
  · simp only [timerTick_of_running hrun, if_pos hrun]
  · simp only [timerTick_of_stopped (Bool.eq_false_iff.2 hrun), if_neg hrun]

theorem completed_timerTick {i : Instr} (h : usesTimers i = false) (s : State) :
    completed i (timerTick s) = timerTick (completed i s) := by
  rw [timerTick_eq, timerTick_eq]
  cases i with
  | ldVxDt | ldDtVx | ldStVx => cases h
  | _ => rfl

theorem faultCause_timerTick (s : State) (i : Instr) : faultCause (timerTick s) i = faultCause s i := by
  rw [timerTick_eq]
  cases i <;> rfl

theorem raised_timerTick (s : State) (k : FaultKind) (iw : Word) :
    (timerTick s).raised k iw = timerTick (s.raised k iw) := by
  rw [timerTick_eq, timerTick_eq]
  rfl

/-- Settles O47: no part but the timers depends on the timers. -/
theorem ticksCommuteWithTimerlessInstructions : Obligations.TicksCommuteWithTimerlessInstructions := fun i s hi =>
  exec_commutes (faultCause_timerTick s i) (raised_timerTick s) (completed_timerTick hi s)

/-! ### What each agent writes (R75) -/

/-- Settles O48, by what a step can be. -/
theorem agentsWriteOnlyTheirState : Obligations.AgentsWriteOnlyTheirState := by
  intro s t ht
  rcases agentStep_next_cases (a := s.nextTurn) (s := s.popTurn) ht with ⟨hturn, -, rfl⟩ | ⟨hturn, -, k, iw, rfl⟩ |
    ⟨i, ⟨hturn, -⟩, -, rfl⟩ | ⟨hturn, rfl⟩ | ⟨m, hturn, hmove⟩
  · rw [hturn]
    exact ⟨rfl, rfl, rfl, rfl⟩
  · rw [hturn]
    exact ⟨rfl, rfl, rfl, rfl⟩
  · rw [hturn]
    exact ⟨rfl, rfl, rfl, rfl⟩
  · rw [hturn, timerTick_eq]
    exact ⟨rfl, rfl⟩
  · rw [hturn]
    rcases hostMove_rebuilds_or_frames hmove with ⟨rom, rfl, -, rfl⟩ | ⟨keys, run, aborted, rfl⟩
    · exact ⟨rfl, rfl⟩
    · cases m with
      | init rom =>
        obtain ⟨-, -, heq⟩ := hostInit_eq_next.1 hmove
        exact ⟨rfl, heq⟩
      | start | abort | keyDown | keyUp | readDisplay | readTimers | readFault => exact ⟨rfl, rfl⟩

end Sys2Proof.Machine

/-! Proofs of 60_exceptions.md and 70_reset_and_hazards.md: the host's moves (R236 to R245, R260, R261). -/

namespace Sys2Proof.Machine

theorem step_of_host {s : State} {m : HostMove} (h : s.nextTurn = .host m) : step s = hostMove m s.popTurn := by
  rw [step_eq, h]
  rfl

/-! ### Init -/

/-- R260: the image at 0x200, every other byte 0. -/
theorem read_romImage {rom : List Byte} (hlen : rom.length ≤ 3584) (a : Nat) :
    (romImage rom).read a = if 0x200 ≤ a ∧ a < 0x200 + rom.length then rom.getD (a - 0x200) 0x00#8 else 0x00#8 :=
  Memory.read_writeBytes [] Memory.nil_wf Config.romBase rom (by simp only [Config.romBase, Config.memSize]; omega) a

/-- Settles O50: Init's state is the reset state but for the image, KEYS, the turns and the count of draws. -/
theorem initLoadsTheImageAndResets : Obligations.InitLoadsTheImageAndResets := by
  intro s rom hturn hrun hlen
  have hstep : step s = .next (s.popTurn.initialised rom) :=
    (step_of_host hturn).trans (hostInit_eq_next.2 ⟨hrun, hlen, rfl⟩)
  refine ⟨_, hstep, romImage_wf rom hlen, fun k hk => ?_, fun a ha => ?_, rfl, rfl, rfl, rfl, rfl, rfl, reset_reg,
    reset_slot, Display.cell_clear, rfl, rfl, rfl, rfl, rfl, rfl, rfl, rfl, rfl⟩
  · have hread := read_romImage hlen (0x200 + k)
    rw [if_pos (by omega), Nat.add_sub_cancel_left, List.getD_eq_getElem _ _ hk] at hread
    exact (congrArg some hread).trans (List.getElem?_eq_getElem hk).symm
  · exact (read_romImage hlen a).trans (if_neg (by omega))

/-! ### Start, Abort and the excluded moves -/

/-- Settles O51, by the tests that Init, Start and Abort make first. -/
theorem excludedHostMovesStop : Obligations.ExcludedHostMovesStop := by
  refine fun s rom => ⟨fun hturn hrun hlen => ?_, fun hturn hrun => ?_, fun hturn hexcluded => ?_, fun hturn hrun => ?_⟩
  all_goals rw [step_of_host hturn]
  · simp only [hostMove, hostInit, State.popTurn_run, hrun, Bool.false_eq_true, if_false, Config.romMax, if_pos hlen]
  · simp only [hostMove, hostInit, State.popTurn_run, hrun, if_true]
  · exact if_pos (Bool.or_eq_true_iff.2 hexcluded)
  · simp only [hostMove, hostAbort, State.popTurn_run, hrun, Bool.false_eq_true, if_false]

/-- Settles O52: both moves inside their preconditions. -/
theorem startAndAbortSetRun : Obligations.StartAndAbortSetRun := by
  refine fun s => ⟨fun hturn hrun haborted => ?_, fun hturn hrun => ?_⟩
  · exact (step_of_host hturn).trans (hostStart_eq_next.2 ⟨hrun, haborted, rfl⟩)
  · exact (step_of_host hturn).trans (hostAbort_eq_next.2 ⟨hrun, rfl⟩)

/-! ### The read moves -/

theorem readDisplay_getElem? (s : State) (row : Fin 32) (col : Fin 64) :
    ((readDisplay s)[row.val]?.bind fun cells => cells[col.val]?) = some (s.disp.cell row col) := by
  simp [readDisplay, Display.cell]

/-- R241: thirty-two rows of sixty-four cells. -/
theorem readDisplay_lengths (s : State) :
    (readDisplay s).length = 32 ∧ ∀ cells ∈ readDisplay s, cells.length = 64 := by
  refine ⟨by simp [readDisplay], fun cells hcells => ?_⟩
  obtain ⟨row, -, rfl⟩ := List.mem_map.1 hcells
  exact row.length_toList

/-- Settles O53: the read moves answer the state they are given, and what they return is read off the state. -/
theorem readMovesReturnTheState : Obligations.ReadMovesReturnTheState := by
  intro s
  obtain ⟨hrows, hcols⟩ := readDisplay_lengths s
  refine ⟨?_, readDisplay_getElem? s, hrows, hcols, ?_, ⟨rfl, rfl, rfl, rfl⟩, fun hclear => ?_, fun hfault => ?_⟩
  · rintro (hturn | hturn | hturn)
    all_goals exact step_of_host hturn
  · simp only [readTimers, State.snd, bne, decide_not]
    rfl
  · simp only [readFault, hclear, Bool.false_eq_true, if_false]
  · simp only [readFault, hfault, if_true]

end Sys2Proof.Machine

/-! Proofs of 00_scope.md: the executions that the agents' interleavings make (R7) and weak fairness (R8). -/

namespace Sys2Proof.Machine

/-! ### Finite schedules -/

/-- A step on a list that begins with `a` is that agent's step, and leaves the rest of the list. -/
theorem step_of_turns_cons {a : Turn} {s t : State} (h : agentStep a s = .next t) (q : List Turn) :
    step { s with turns := a :: q } = .next { t with turns := q } := by
  have hagent : step { s with turns := a :: q } = agentStep a { s with turns := q } := rfl
  rw [hagent, agentStep_turns, h]
  rfl

/-- Settles O58, by induction on the number of steps: after the first, the rest of the execution is an execution. -/
theorem finiteSchedulesGiveEveryInterleaving : Obligations.FiniteSchedulesGiveEveryInterleaving := by
  intro acts states hexec n
  induction n generalizing acts states with
  | zero => exact fun rest => rfl
  | succ n ih =>
    intro rest
    have hturns : (List.range (n + 1)).map acts ++ rest = acts 0 :: ((List.range n).map (acts ∘ Nat.succ) ++ rest) := by
      rw [List.range_succ_eq_map, List.map_cons, List.map_map, List.cons_append]
    rw [hturns, core_run_succ_of_next (step_of_turns_cons (hexec 0) _)]
    exact ih (acts ∘ Nat.succ) (states ∘ Nat.succ) (fun k => hexec (k + 1)) rest

/-! ### Timers in fair executions -/

/-- A number that never rises, and that from every point on is lowered again while it is positive, ends at 0. -/
theorem eventually_zero_of_lowered {f : Nat → Nat} (hanti : ∀ n, f (n + 1) ≤ f n)
    (hlower : ∀ n, ∃ m, n ≤ m ∧ f (m + 1) ≤ f m - 1) : ∃ m, ∀ k, m ≤ k → f k = 0 := by
  have hmono : Antitone f := antitone_nat_of_succ_le hanti
  have hbound : ∀ b n, f n ≤ b → ∃ m, ∀ k, m ≤ k → f k = 0 := by
    intro b
    induction b with
    | zero => exact fun n hn => ⟨n, fun k hk => Nat.eq_zero_of_le_zero ((hmono hk).trans hn)⟩
    | succ b ih =>
      intro n hn
      obtain ⟨m, hnm, hm⟩ := hlower n
      have hle := hmono hnm
      exact ih (m + 1) (by omega)
  exact hbound (f 0) 0 le_rfl

/-- Init is not moved while RUN = 1 (R245). -/
theorem ne_init_of_running {a : Turn} {s t : State} (ht : agentStep a s = .next t) (hrun : s.run = true) :
    ∀ rom, a ≠ .host (.init rom) := by
  rintro rom rfl
  exact Bool.false_ne_true ((hostInit_eq_next.1 ht).1.symm.trans hrun)

/-- In a fair execution with RUN = 1 a timer that no step changes but by lowering, and every tick lowers, runs down. -/
theorem timer_runs_down {acts : Nat → Turn} {states : Nat → State} (hfair : WeaklyFair acts states)
    (hrun : ∀ n, (states n).run = true) (timer : State → Byte)
    (hstep : ∀ n, timer (states (n + 1)) = timerDown (timer (states n)) ∨ timer (states (n + 1)) = timer (states n))
    (htick : ∀ n, acts n = .tick → timer (states (n + 1)) = timerDown (timer (states n))) :
    ∃ m, ∀ k, m ≤ k → timer (states k) = 0#8 := by
  have hanti : ∀ n, (timer (states (n + 1))).toNat ≤ (timer (states n)).toNat := by
    intro n
    rcases hstep n with hdown | hsame
    · rw [hdown, timerDown_toNat]
      omega
    · rw [hsame]
  have hlower : ∀ n, ∃ m, n ≤ m ∧ (timer (states (m + 1))).toNat ≤ (timer (states m)).toNat - 1 := by
    intro n
    obtain ⟨-, m, hnm, hturn | hoff⟩ := hfair n
    · exact ⟨m, hnm, by rw [htick m hturn, timerDown_toNat]⟩
    · exact absurd (hoff.symm.trans (hrun m)) Bool.false_ne_true
  obtain ⟨m, hzero⟩ := eventually_zero_of_lowered (f := fun n => (timer (states n)).toNat) hanti hlower
  exact ⟨m, fun k hk => BitVec.eq_of_toNat_eq (hzero k hk)⟩

/-- A tick of a running execution lowers both timers. -/
theorem IsExecution.tick {acts : Nat → Turn} {states : Nat → State} (hexec : IsExecution acts states) {n : Nat}
    (hrun : (states n).run = true) (hturn : acts n = .tick) :
    (states (n + 1)).dt = timerDown (states n).dt ∧ (states (n + 1)).st = timerDown (states n).st := by
  have hnext := hexec n
  rw [hturn] at hnext
  have hstate := Host.Outcome.next.inj hnext
  rw [← hstate, timerTick_of_running hrun]
  exact ⟨rfl, rfl⟩

/-- Settles O59: with no load, each timer is only ever lowered, and fairness gives it ticks. -/
theorem timersRunDownInFairExecutions : Obligations.TimersRunDownInFairExecutions := by
  intro acts states hexec hfair hrun
  have hinit n := ne_init_of_running (hexec n) (hrun n)
  refine ⟨fun hno => timer_runs_down hfair hrun State.dt (fun n => ?_) fun n hturn => (hexec.tick (hrun n) hturn).1,
    fun hno => timer_runs_down hfair hrun State.st (fun n => ?_) fun n hturn => (hexec.tick (hrun n) hturn).2⟩
  · rcases agentStep_dt (hexec n) (hinit n) with ⟨x, hload⟩ | ⟨-, hdown⟩ | hsame
    · exact absurd hload (hno n x)
    · exact .inl hdown
    · exact .inr hsame
  · rcases agentStep_st (hexec n) (hinit n) with ⟨x, hload, -⟩ | ⟨-, hdown⟩ | hsame
    · exact absurd hload (hno n x)
    · exact .inl hdown
    · exact .inr hsame

/-! ### The key wait in fair executions -/

/-- What the CPU's next fetch and its meaning rest on besides the keys: PC, V, memory and FAULT. -/
def SameProgram (s t : State) : Prop := t.pc = s.pc ∧ t.v = s.v ∧ t.mem = s.mem ∧ t.fault = s.fault

theorem SameProgram.fetchWord {s t : State} (h : SameProgram s t) : t.fetchWord = s.fetchWord := by
  obtain ⟨hpc, -, hmem, -⟩ := h
  simp only [State.fetchWord, State.readByte, hpc, hmem]

/-- While RUN = 1 the other agents leave the CPU's program state (R75). -/
theorem sameProgram_of_other_agent {a : Turn} {s t : State} (ht : agentStep a s = .next t) (hrun : s.run = true)
    (hcpu : a ≠ .cpu) : SameProgram s t := by
  rcases agentStep_next_cases ht with ⟨hturn, -⟩ | ⟨hturn, -⟩ | ⟨i, ⟨hturn, -⟩, -⟩ | ⟨-, rfl⟩ | ⟨m, rfl, hmove⟩
  · exact absurd hturn hcpu
  · exact absurd hturn hcpu
  · exact absurd hturn hcpu
  · rw [timerTick_of_running hrun]
    exact ⟨rfl, rfl, rfl, rfl⟩
  · rcases hostMove_rebuilds_or_frames hmove with ⟨rom, -, hstopped, -⟩ | ⟨keys, run, aborted, rfl⟩
    · exact absurd (hstopped.symm.trans hrun) Bool.false_ne_true
    · exact ⟨rfl, rfl, rfl, rfl⟩

/-- Until the CPU's first step its program state stays. -/
theorem sameProgram_until_cpu {acts : Nat → Turn} {states : Nat → State} (hexec : IsExecution acts states)
    (hrun : ∀ n, (states n).run = true) (j : Nat) (hcpu : ∀ k, k < j → acts k ≠ .cpu) :
    SameProgram (states 0) (states j) := by
  induction j with
  | zero => exact ⟨rfl, rfl, rfl, rfl⟩
  | succ j ih =>
    obtain ⟨hpc, hv, hmem, hfault⟩ := ih fun k hk => hcpu k (hk.trans j.lt_succ_self)
    obtain ⟨hpc', hv', hmem', hfault'⟩ := sameProgram_of_other_agent (hexec j) (hrun j) (hcpu j j.lt_succ_self)
    exact ⟨hpc'.trans hpc, hv'.trans hv, hmem'.trans hmem, hfault'.trans hfault⟩

/-- A fair execution with RUN = 1 gives a CPU that has not faulted a first step. -/
theorem exists_first_cpu_step {acts : Nat → Turn} {states : Nat → State} (hexec : IsExecution acts states)
    (hfair : WeaklyFair acts states) (hrun : ∀ n, (states n).run = true) (hfault : (states 0).fault = false) :
    ∃ m, acts m = .cpu ∧ ∀ k, k < m → acts k ≠ .cpu := by
  have hcpu : ∃ m, acts m = .cpu := by
    by_contra hnever
    have hother : ∀ k, acts k ≠ .cpu := not_exists.1 hnever
    obtain ⟨⟨m, -, hturn | hoff⟩, -⟩ := hfair 0
    · exact hother m hturn
    · obtain ⟨-, -, -, hsame⟩ := sameProgram_until_cpu hexec hrun m fun k _ => hother k
      have hon := (states m).cpuEnabled_iff.2 ⟨hrun m, hsame.trans hfault⟩
      exact Bool.false_ne_true (hoff.symm.trans hon)
  exact ⟨Nat.find hcpu, Nat.find_spec hcpu, fun k => Nat.find_min hcpu⟩

theorem agentStep_of_executes {a : Turn} {s : State} {i : Instr} (h : Executes a s i) : agentStep a s = exec i s := by
  obtain ⟨rfl, hon, w, hfetch, hdecode⟩ := h
  simp only [agentStep, cpuStep, hon, if_true, hfetch, runWord, hdecode]

/-- Settles O60: the other agents leave the waiting CPU's state, fairness gives it a step, and in that step a key is
down. -/
theorem keyWaitEndsInFairExecutions : Obligations.KeyWaitEndsInFairExecutions := by
  intro acts states x w hexec hfair halways hfault hfetch hdecode
  have hrun n := (halways n).1
  obtain ⟨m, hturn, hbefore⟩ := exists_first_cpu_step hexec hfair hrun hfault
  have hsame j (hj : j ≤ m) := sameProgram_until_cpu hexec hrun j fun k hk => hbefore k (hk.trans_le hj)
  obtain ⟨hpc, -, -, hfault'⟩ := hsame m le_rfl
  have hon : (states m).cpuEnabled = true := (states m).cpuEnabled_iff.2 ⟨hrun m, hfault'.trans hfault⟩
  have hexecutes : Executes (acts m) (states m) (.ldVxK x) :=
    ⟨hturn, hon, w, (hsame m le_rfl).fetchWord.trans hfetch, hdecode⟩
  obtain ⟨q, hq⟩ := (halways m).2
  obtain ⟨-, -, hload⟩ := ldKeyWaitsOrLoadsAPressedKey x (states m)
  obtain ⟨t, k, hnext, hframe, hdown, hreg, -⟩ := hload q hq
  obtain rfl : states (m + 1) = t :=
    Host.Outcome.next.inj ((hexec m).symm.trans ((agentStep_of_executes hexecutes).trans hnext))
  refine ⟨m, fun j hj => ?_, ?_, k, hdown, hreg⟩
  · obtain ⟨hpcj, hvj, -⟩ := hsame j hj
    exact ⟨hpcj, hvj⟩
  · rw [hframe, State.pcPlus, State.pcPlus, hpc]

end Sys2Proof.Machine
